-- ==== Sys2Proof/Word.lean ====
section
/-! DEFINITION. The word types of the block: 32-bit registers, bytes, binary32 encodings, handles, and one
channel's coefficient and history registers (10_state.md rules R27 to R30). -/

namespace Sys2Proof

/-- A 32-bit register or command word (R21, R71). -/
abbrev Word := BitVec 32

/-- One byte of the data space (R50). -/
abbrev Byte := BitVec 8

/-- An IEEE 754 binary32 value, as its 32-bit encoding `bits32` (R10). -/
abbrev F32 := BitVec 32

/-- A handle: slot index in [7:0], generation in [15:8] (R28). -/
abbrev Handle := BitVec 16

/-- One channel's coefficients `b0, b1, b2, a1, a2` (R29). -/
structure Coef where
  b0 : F32
  b1 : F32
  b2 : F32
  a1 : F32
  a2 : F32
  deriving DecidableEq, Repr, Inhabited

/-- One channel's history: the last two normalised inputs and outputs (R30). -/
structure Hist where
  x1 : F32
  x2 : F32
  y1 : F32
  y2 : F32
  deriving DecidableEq, Repr, Inhabited

/-- `+0.0` in all five places (R27, R199). -/
def Coef.zero : Coef := ⟨0, 0, 0, 0, 0⟩

/-- The neutral coefficients `b0 = 1.0`, the rest `+0.0` (R192). -/
def Coef.neutral : Coef := ⟨0x3F800000, 0, 0, 0, 0⟩

/-- `+0.0` in all four places (R192, R196). -/
def Hist.zero : Hist := ⟨0, 0, 0, 0⟩

end Sys2Proof
end

