-- ==== Sys2Proof/Syntax.lean ====
section
/-! DEFINITION. The commands of the block: one constructor for each row of spec/opcode_table.json
(30_encoding.md rule R72). The arguments are the fields of the command word; every other operand comes from
the argument registers (R73). -/

namespace Sys2Proof

inductive Instr where
  /-- CONFIGURE: create an instance (R190). -/
  | configure
  /-- SETPARAMS: redesign the coefficients of instance `h` (R100). -/
  | setparams (h : Handle)
  /-- PROCESS.PCM16: filter 16-bit integer samples (R170). -/
  | processPcm16 (h : Handle)
  /-- PROCESS.PCMFLOAT: filter binary32 samples (R171). -/
  | processPcmfloat (h : Handle)
  /-- PROCESS.FMT<n>: any FMT other than 0x02 and 0x04 (R172). -/
  | processFmt (fmt : BitVec 8) (h : Handle)
  /-- RESET: zero the history of instance `h` (R195). -/
  | reset (h : Handle)
  /-- RELEASE: free instance `h` (R198). -/
  | release (h : Handle)
  /-- ILLEGAL: a word `w` that no row matches (R201). -/
  | illegal (w : Word)
  deriving DecidableEq, Repr

end Sys2Proof
end

