-- ==== Sys2Proof/WellFormed.lean ====
section
/-! DEFINITION. Which instructions a command word can stand for. The two checks are those of 30_encoding.md:
PROCESS.FMT<n> excludes the two supported formats (R77), and ILLEGAL holds a word that no row of R72 matches,
said here field by field as R75 and R76 say it, and not through the decoder's masks. -/

namespace Sys2Proof

/-- The words of R76: a reserved opcode, or a word R75 rejects for a field that must be 0. -/
def isIllegalWord (w : Word) : Bool :=
  let op := w.extractLsb' 0 4
  let rsv := w.extractLsb' 4 4
  let slot := w.extractLsb' 8 8
  let gen := w.extractLsb' 16 8
  let fmt := w.extractLsb' 24 8
  (op == 0 || decide (6 ≤ op.toNat))
    || rsv != 0
    || (op == 1 && (slot != 0 || gen != 0 || fmt != 0))
    || ((op == 2 || op == 4 || op == 5) && fmt != 0)

/-- The instruction is one some command word decodes to. -/
def Instr.wf : Instr → Bool
  | .configure => true
  | .setparams _ => true
  | .processPcm16 _ => true
  | .processPcmfloat _ => true
  | .processFmt fmt _ => fmt != 0x02 && fmt != 0x04
  | .reset _ => true
  | .release _ => true
  | .illegal w => isIllegalWord w

end Sys2Proof
end

