-- ==== Sys2Proof/Decode.lean ====
section
/-! DEFINITION. Decoding a command word by the rows of 30_encoding.md rule R72, from the top row down, and the
encoder written from the format of R71. Every word has a meaning: one that no row matches is ILLEGAL (R76), so
the decoder is total and rejects nothing outside that row. -/

namespace Sys2Proof

/-- `HANDLE = W[23:8]` (R71). -/
def handleField (w : Word) : Handle := w.extractLsb' 8 16

/-- `FMT = W[31:24]` (R71). -/
def fmtField (w : Word) : BitVec 8 := w.extractLsb' 24 8

/-- The handle's slot index (R28). -/
def handleSlot (h : Handle) : Nat := (h.extractLsb' 0 8).toNat

/-- The handle's generation (R28). -/
def handleGen (h : Handle) : BitVec 8 := h.extractLsb' 8 8

/-- The handle `{gen, slot}` (R24, R28). -/
def mkHandle (gen : BitVec 8) (slot : Nat) : Handle := gen ++ BitVec.ofNat 8 slot

/-- Decoding (R72): the first row whose `(W & mask) = match`. -/
def decode (w : Word) : Instr :=
  if w &&& 0xFFFFFFFF = 0x00000001 then .configure
  else if w &&& 0xFF0000FF = 0x00000002 then .setparams (handleField w)
  else if w &&& 0xFF0000FF = 0x02000003 then .processPcm16 (handleField w)
  else if w &&& 0xFF0000FF = 0x04000003 then .processPcmfloat (handleField w)
  else if w &&& 0x000000FF = 0x00000003 then .processFmt (fmtField w) (handleField w)
  else if w &&& 0xFF0000FF = 0x00000004 then .reset (handleField w)
  else if w &&& 0xFF0000FF = 0x00000005 then .release (handleField w)
  else .illegal w

/-- A command word from its fields, most significant first: FMT, HANDLE, RSV = 0, OP (R71). -/
def commandWord (fmt : BitVec 8) (h : Handle) (op : BitVec 4) : Word :=
  (fmt ++ h) ++ ((0 : BitVec 4) ++ op)

/-- The command word of an instruction (R71, R72). -/
def encode : Instr → Word
  | .configure => commandWord 0 0 1
  | .setparams h => commandWord 0 h 2
  | .processPcm16 h => commandWord 2 h 3
  | .processPcmfloat h => commandWord 4 h 3
  | .processFmt fmt h => commandWord fmt h 3
  | .reset h => commandWord 0 h 4
  | .release h => commandWord 0 h 5
  | .illegal w => w

/-- The command word whose low `nbits` bits are those of `w` and whose other bits are 0. A command is one
32-bit word (R79), so bits above 31 give no word. -/
def tableWord (nbits w : Nat) : Option Word :=
  if w % 2 ^ nbits < 2 ^ 32 then some (BitVec.ofNat 32 (w % 2 ^ nbits)) else none

/-- What the decoder reads from an instruction whose bits are `w`, numbered as spec/opcode_table.json does. -/
def decodeTableWord (nbits w : Nat) : Option Instr := (tableWord nbits w).map decode

end Sys2Proof
end

