-- ==== Sys2Proof/Config.lean ====
section
/-! DEFINITION. What an implementation fixes: the named constants of 00_scope.md rule R6, the platform
parameters the spec leaves OPEN (R7, R39), and the free values of the spec as constants without a body. -/

namespace Sys2Proof

/-- Where the DESIGN function of R104 comes from: the reference REF64, or the implementation's own. -/
inductive Designer where
  /-- DESIGN = REF64 (R104). -/
  | reference
  /-- DESIGN is OPEN (R7, D9): `Config.design`, of which nothing is known. -/
  | implementation
  deriving DecidableEq, Repr

/-- The OPEN parameters of one block (R7, R39, R51). They are plain data in State and no step changes them,
so that a statement about every state is a statement about every platform. -/
structure Platform where
  /-- N_SLOTS, 1 to 256. -/
  nSlots : Nat
  /-- ADDR_BITS, 1 to 32. -/
  addrBits : Nat
  /-- MEM_BASE, the first address of the addressable window. -/
  memBase : Nat
  /-- MEM_SIZE, the window's size in bytes. -/
  memSize : Nat
  /-- REG_BASE, where the register window stands on the register bus. -/
  regBase : Nat
  /-- DESIGN. -/
  designer : Designer
  deriving DecidableEq, Repr

/-- The ranges of R7, and both bounds of the addressable window inside `[0, 2^ADDR_BITS)` (R51). -/
def Platform.wf (p : Platform) : Bool :=
  decide (1 ≤ p.nSlots ∧ p.nSlots ≤ 256 ∧ 1 ≤ p.addrBits ∧ p.addrBits ≤ 32
    ∧ p.memBase < 2 ^ p.addrBits ∧ p.memBase + p.memSize < 2 ^ p.addrBits)

namespace Config

/-- MAX_BOOST_DB (R6, D38). -/
def maxBoostDb : Nat := 21

/-- The platform of State.reset: the spec's defaults N_SLOTS = 1 and ADDR_BITS = 32 (R7), and the window and
designer of 95_test_vectors.md's conventions. DESIGN CHOICE, unsafe: notes/assumptions/2.md. -/
def defaultPlatform : Platform where
  nSlots := 1
  addrBits := 32
  memBase := 0x1000
  memSize := 0x2000
  regBase := 0
  designer := .reference

/-- NAN_PAYLOAD: the sign (bit 22) and the 22 payload bits of the NaN with this draw number (R10, R133).
A free value: notes/assumptions/5.md. -/
opaque nanPayload : Nat → BitVec 23

/-- NAN_TO_INT16: the int16 a NaN output becomes, by draw number (R139). A free value: notes/assumptions/5.md. -/
opaque nanInt16 : Nat → BitVec 16

/-- DESIGN where the platform leaves it OPEN (R7, R104): a function of MAX_BOOST_DB, `rate`, `g`, `f` and `q`
alone. A free value: notes/assumptions/6.md. -/
opaque design : Nat → Int → F32 → F32 → F32 → Coef

end Config

end Sys2Proof
end

