-- ==== Sys2Proof/Machine/State.lean ====
section
/-! DEFINITION. The state of the block (10_state.md rules R20 to R40), of the data space it masters (20_memory.md
rule R50) and of the host's side of the register bus, as plain data, and its value after reset (R250). -/

namespace Sys2Proof.Machine

/-- Whether a slot holds a FilterInstance (R27). -/
inductive SlotState where
  | free
  | live
  deriving DecidableEq, Repr

/-- One instance slot (R27). Channel 0 is left and channel 1 is right. -/
structure Slot where
  state : SlotState
  /-- The generation, advanced by RELEASE (R28, R32). -/
  gen : BitVec 8
  /-- The sticky NumericInstability mark (R107). -/
  numFault : Bool
  /-- CONFIGURE's sampleRateHz (R33). -/
  rate : Word
  /-- CONFIGURE's bytesPerFrame (R33). -/
  bpf : Word
  coef0 : Coef
  coef1 : Coef
  hist0 : Hist
  hist1 : Hist
  deriving DecidableEq, Repr

/-- A slot after power-on reset (R27, R250). -/
def Slot.reset : Slot where
  state := .free
  gen := 0
  numFault := false
  rate := 0
  bpf := 0
  coef0 := Coef.zero
  coef1 := Coef.zero
  hist0 := Hist.zero
  hist1 := Hist.zero

/-- What the outside world can do to the block (R39, R59, R250). `agent` names the host agent (R233), `addr` is an
address on the register bus, and `width` is the access width in bits. -/
inductive HostEvent where
  /-- A register-bus read (R39). -/
  | regRead (agent addr width : Nat)
  /-- A register-bus write (R39). -/
  | regWrite (agent addr width : Nat) (value : Word)
  /-- A byte another bus master writes to the data space, between commands (R59, R62). -/
  | dataWrite (addr : Nat) (value : Byte)
  /-- Power-on reset (R250). -/
  | powerOnReset
  deriving DecidableEq, Repr

/-- The monitor of the host duties H1 and H2 (R256, R233). -/
inductive Session where
  /-- No command is being prepared, and no STATUS is unread. -/
  | idle
  /-- `agent` has written argument registers for its next command. -/
  | args (agent : Nat)
  /-- `agent` has issued a command and has not read its STATUS. -/
  | due (agent : Nat)
  deriving DecidableEq, Repr

structure State where
  /-- The OPEN parameters of this block (R7): constants, which no step changes. CAPS is one of them (R26). -/
  plat : Platform
  /-- CMD (R21): the last command word. -/
  cmd : Word
  /-- A0 to A5 (R22): the argument registers. -/
  a0 : Word
  a1 : Word
  a2 : Word
  a3 : Word
  a4 : Word
  a5 : Word
  /-- STATUS (R23). -/
  status : Word
  /-- RESULT (R24). -/
  result : Word
  /-- FAULT (R25). -/
  fault : Word
  /-- The slot array (R27), slot 0 first. -/
  slots : List Slot
  /-- The data space (R50): the bytes that are not 0x00, in rising address order. -/
  mem : List Host.Cell
  /-- The host accesses still to come, the next one first (R261). The model's own field. -/
  host : List HostEvent
  /-- The value the last register read gave the host (R39). The model's own field. -/
  readData : Option Word
  /-- The duty monitor (R256). The model's own field. -/
  session : Session
  /-- The argument registers a host has written since power-on reset, by index and each once (R256 H1). The model's
  own field. -/
  written : List Nat
  /-- The handles a RELEASE has ended with OK for since power-on reset, the last one first (R256 H6). The model's own
  field. -/
  released : List Handle
  /-- How many free values have been numbered (R133, R139). The model's own field. -/
  draws : Nat
  deriving DecidableEq, Repr

/-- The block right after power-on reset (R250), on a given platform, with no data byte set and no host access
pending. -/
def State.resetOn (p : Platform) : State where
  plat := p
  cmd := 0
  a0 := 0
  a1 := 0
  a2 := 0
  a3 := 0
  a4 := 0
  a5 := 0
  status := 0
  result := 0
  fault := 0
  slots := List.replicate p.nSlots Slot.reset
  mem := []
  host := []
  readData := none
  session := .idle
  written := []
  released := []
  draws := 0

/-- The machine right after reset (R250), on the platform notes/assumptions/2.md names. -/
def State.reset : State := State.resetOn Config.defaultPlatform

/-- Why the machine stops with a fault. No command raises one: the block's errors are statuses (R220). -/
inductive Fault where
  /-- Raised by a host write of a data-space byte whose address does not exist, at or above 2^ADDR_BITS (R50).
  Safe: the model stops. -/
  | noSuchAddress
  deriving DecidableEq, Repr

/-- Why the model has no step (R12). No command is refused: these are host accesses the spec gives no meaning. -/
inductive Refusal where
  /-- Raised by a command that has no meaning in the model; there is none. Safe. -/
  | notModelled (mnemonic : String)
  /-- Raised by a register-bus access that is not 32 bits wide or not aligned (R39, duty H8). Safe. -/
  | busAccess
  /-- Raised by a register-bus access outside the block's window (R39). Safe. -/
  | outsideWindow
  /-- Raised by a host agent that writes an argument register while its last command's STATUS is unread, or that
  issues a command before every argument register the command uses has been written (R256 H1: "it is refused and gets
  no meaning"). Safe. -/
  | dutyH1
  /-- Raised by a host agent that writes the register window while another agent's command is being prepared or
  its STATUS is unread (R256 H2, R233). Safe. -/
  | dutyH2
  /-- Raised by a host that issues a command naming a released handle which names a live instance again, after a
  generation wrap (R256 H6, R32). Safe. -/
  | dutyH6
  deriving DecidableEq, Repr

end Sys2Proof.Machine
end

