-- ==== Sys2Proof/Machine/Flags.lean ====
section
/-! DEFINITION. The status codes and the sticky fault bits: the only status-like state the block has (10_state.md
rules R23, R25 and R36; 60_exceptions.md rules R221 and R223). No arithmetic sets any of them. -/

namespace Sys2Proof.Machine

/-- The outcomes of a command (R221). -/
inductive Status where
  | ok
  | invalidArgument
  | unsupportedEncoding
  | numericInstability
  | useAfterRelease
  | illegalCommand
  | noFreeSlot
  deriving DecidableEq, Repr

/-- The code in STATUS[7:0] (R221). -/
def statusCode : Status → BitVec 8
  | .ok => 0
  | .invalidArgument => 1
  | .unsupportedEncoding => 2
  | .numericInstability => 3
  | .useAfterRelease => 4
  | .illegalCommand => 5
  | .noFreeSlot => 6

/-- The FAULT bit a status sets (R223): UAR is bit 0, NUMINST bit 1, ILLCMD bit 2 (R25). -/
def faultBit : Status → Word
  | .useAfterRelease => 1
  | .numericInstability => 2
  | .illegalCommand => 4
  | .ok => 0
  | .invalidArgument => 0
  | .unsupportedEncoding => 0
  | .noFreeSlot => 0

/-- STATUS with a code: [31:8] is hardwired 0 (R23). -/
def statusWord (e : Status) : Word := (0 : BitVec 24) ++ statusCode e

/-- STATUS as the register bus reads it (R23). -/
def statusRead (w : Word) : Word := w &&& 0xFF

/-- FAULT as the register bus reads it: [31:3] is hardwired 0 (R25). -/
def faultRead (w : Word) : Word := w &&& 0x7

end Sys2Proof.Machine
end

