-- ==== Sys2Proof/Machine/Ops.lean ====
section
/-! DEFINITION. The named operations over the data space, the slot array and the registers, and the two ways a
command ends: `raise`, which is all the block has in place of trap entry (60_exceptions.md rules R223 and R227),
and `finish` (00_scope.md rule R9). There is no trap return (R228). -/

namespace Sys2Proof.Machine

/-! ### The data space (R50, R52) -/

/-- What a byte nobody has written reads as. DESIGN CHOICE, unsafe: notes/assumptions/1.md. -/
def unlistedByte : Byte := 0

/-- The byte at an address. -/
def readByte : List Host.Cell → Nat → Byte
  | [], _ => unlistedByte
  | (a, b) :: rest, x => if a = x then b else readByte rest x

/-- Putting a byte in front of cells above it; the value an unlisted address reads as is not listed. -/
def consByte (x : Nat) (v : Byte) (rest : List Host.Cell) : List Host.Cell :=
  if v = unlistedByte then rest else (x, v) :: rest

/-- Writing one byte, in canonical form. -/
def writeByte : List Host.Cell → Nat → Byte → List Host.Cell
  | [], x, v => consByte x v []
  | (a, b) :: rest, x, v =>
    if x < a then consByte x v ((a, b) :: rest)
    else if x = a then consByte x v rest
    else (a, b) :: writeByte rest x v

/-- The canonical form: addresses strictly rising, and no entry that an unlisted address would read as. -/
def memWf : List Host.Cell → Bool
  | [] => true
  | (a, b) :: rest => decide (b ≠ unlistedByte) && rest.all (fun c => decide (a < c.1)) && memWf rest

/-- `MemRead(addr, n)` (R52): little-endian, each byte read once. -/
def readLE (m : List Host.Cell) (addr : Nat) : Nat → Nat
  | 0 => 0
  | n + 1 => (readByte m addr).toNat + 256 * readLE m (addr + 1) n

/-- `MemWrite(addr, n, v)` (R52). -/
def writeLE (m : List Host.Cell) (addr : Nat) : Nat → Nat → List Host.Cell
  | 0, _ => m
  | n + 1, v => writeLE (writeByte m addr (BitVec.ofNat 8 v)) (addr + 1) n (v / 256)

/-! ### The slot array (R27, R28) -/

/-- The slot a handle names, when it names a live instance (R28); a handle that does so again after 256 RELEASEs is
live (R32; notes/assumptions/9.md). -/
def liveSlot (s : State) (h : Handle) : Option Slot :=
  if handleSlot h < s.plat.nSlots then
    match s.slots[handleSlot h]? with
    | some sl => if sl.state = .live ∧ sl.gen = handleGen h then some sl else none
    | none => none
  else none

/-- `slot[i] <- sl`. -/
def setSlot (s : State) (i : Nat) (sl : Slot) : State := { s with slots := s.slots.set i sl }

/-- The least FREE slot (R191). -/
def freeSlot (s : State) : Option Nat := s.slots.findIdx? (fun sl => decide (sl.state = .free))

/-- The instance CONFIGURE makes in a slot (R190, R192); the generation is kept. -/
def configuredSlot (sl : Slot) (rate bpf : Word) : Slot where
  state := .live
  gen := sl.gen
  numFault := false
  rate := rate
  bpf := bpf
  coef0 := Coef.neutral
  coef1 := Coef.neutral
  hist0 := Hist.zero
  hist1 := Hist.zero

/-- A slot after RELEASE (R198, R199): the generation advances by one modulo 256 (R32). -/
def releasedSlot (sl : Slot) : Slot := { Slot.reset with gen := sl.gen + 1 }

/-! ### How a command ends -/

/-- `raise E()` (R223). -/
def raise (e : Status) (s : State) : State :=
  { s with status := statusWord e, fault := s.fault ||| faultBit e }

/-- `finish()` (R9): the command ends with status OK. -/
def finish (s : State) : State := { s with status := statusWord .ok }

/-! ### The register window (R21, R39) -/

/-- CAPS: N_SLOTS in [8:0], the rest hardwired 0 (R26). -/
def caps (s : State) : Word := (0 : BitVec 23) ++ BitVec.ofNat 9 s.plat.nSlots

/-- A register-bus read at an aligned offset of the window: the value, with no side effect (R21, R39). -/
def readReg (s : State) (off : Nat) : Word :=
  match off with
  | 0x00 => s.cmd
  | 0x04 => s.a0
  | 0x08 => s.a1
  | 0x0C => s.a2
  | 0x10 => s.a3
  | 0x14 => s.a4
  | 0x18 => s.a5
  | 0x1C => statusRead s.status
  | 0x20 => s.result
  | 0x24 => faultRead s.fault
  | 0x28 => caps s
  | _ => 0

/-- A register-bus write at an offset other than CMD's: A0 to A5 store, the rest ignore it (R39). -/
def writeArg (s : State) (off : Nat) (v : Word) : State :=
  match off with
  | 0x04 => { s with a0 := v }
  | 0x08 => { s with a1 := v }
  | 0x0C => { s with a2 := v }
  | 0x10 => { s with a3 := v }
  | 0x14 => { s with a4 := v }
  | 0x18 => { s with a5 := v }
  | _ => s

/-- The offset is that of an argument register (R21). -/
def isArgOffset (off : Nat) : Bool := decide (0x04 ≤ off ∧ off ≤ 0x18)

/-- Power-on reset (R250): every register and slot at its reset value. The externally owned data space keeps its
bytes, the host its accesses, and no draw number is used again (notes/assumptions/10.md). -/
def powerOnReset (s : State) : State :=
  { State.resetOn s.plat with
    mem := s.mem, host := s.host, readData := s.readData, draws := s.draws }

end Sys2Proof.Machine
end

