-- ==== Sys2Proof/Machine/Operands.lean ====
section
/-! DEFINITION. Operand assembly (30_encoding.md rules R73 and R74): every operand is one whole argument register,
read as `sint32`, `uint32` or a binary32 encoding; and the checks on the two buffer views of PROCESS (20_memory.md
rules R51 and R54, 43_stereo_adapter.md rules R161 and R162). -/

namespace Sys2Proof.Machine

/-- `sint32(w)` (R8). -/
def sint32 (w : Word) : Int := w.toInt

/-- `uint32(w)` (R8). -/
def uint32 (w : Word) : Nat := w.toNat

/-- How many argument registers a command reads: those of its row of R73, which are A0 and the next ones up. -/
def argCount : Instr → Nat
  | .configure => 3
  | .setparams _ => 4
  | .processPcm16 _ => 6
  | .processPcmfloat _ => 6
  | .processFmt _ _ => 6
  | .reset _ => 0
  | .release _ => 0
  | .illegal _ => 0

/-- The handle a command names (R73, R74). -/
def handleOf : Instr → Option Handle
  | .configure => none
  | .setparams h => some h
  | .processPcm16 h => some h
  | .processPcmfloat h => some h
  | .processFmt _ h => some h
  | .reset h => some h
  | .release h => some h
  | .illegal _ => none

/-- The operands of PROCESS (R54). -/
structure Views where
  inBase : Nat
  pos : Int
  lim : Int
  inCap : Int
  outBase : Nat
  outCap : Int
  deriving DecidableEq, Repr

/-- `views(A)` (R54, R73). -/
def viewsOf (s : State) : Views where
  inBase := uint32 s.a0
  pos := sint32 s.a1
  lim := sint32 s.a2
  inCap := sint32 s.a3
  outBase := uint32 s.a4
  outCap := sint32 s.a5

/-- `limit - position` (R54, R162), in bytes, exact. -/
def viewsLen (v : Views) : Int := v.lim - v.pos

/-- A view with base `p` and capacity `cap` is addressable (R51, R74). Nothing wraps around. -/
def addressable (plat : Platform) (p : Nat) (cap : Int) : Bool :=
  decide (p ≠ 0 ∧ 0 ≤ cap ∧ p < 2 ^ plat.addrBits ∧ plat.memBase ≤ p
    ∧ (p : Int) + cap ≤ (plat.memBase + plat.memSize : Nat))

/-- `check_views` (R161 (a)): neither view is null or out of the window. -/
def viewsOk (plat : Platform) (v : Views) : Bool :=
  addressable plat v.inBase v.inCap && addressable plat v.outBase v.outCap

/-- `check_range` (R161 (b)). -/
def rangeOk (v : Views) : Bool := decide (0 ≤ v.pos ∧ v.pos ≤ v.lim ∧ v.lim ≤ v.inCap)

/-- The sample format is one of the two supported (R77). -/
def fmtSupported (fmt : BitVec 8) : Bool := fmt == 0x02 || fmt == 0x04

/-- `WIDTH(fmt)`, in bytes, of a supported format (R6, R162). -/
def sampleWidth (fmt : BitVec 8) : Nat := if fmt = 0x02 then 2 else 4

/-- `check_length` (R161 (c)): whole samples, an even number of them, and room for the output. -/
def lengthOk (v : Views) (w : Nat) : Bool :=
  decide (viewsLen v % w = 0 ∧ (viewsLen v / w) % 2 = 0 ∧ viewsLen v ≤ v.outCap)

/-- The number of samples (R162). -/
def sampleCount (v : Views) (w : Nat) : Nat := (viewsLen v / w).toNat

end Sys2Proof.Machine
end

