-- ==== Sys2Proof/Machine/Float.lean ====
section
/-! DEFINITION. IEEE 754 arithmetic for binary32 and binary64 (00_scope.md rule R10): a value is unpacked to an
exact number, the operation is done exactly, and one narrowing step rounds the result to nearest, ties to even.
Subnormals are kept, and there are no exception flags (R133). -/

namespace Sys2Proof.Machine

/-- A binary interchange format: significand bits with the hidden one, and exponent bits. -/
structure Fmt where
  prec : Nat
  expBits : Nat
  deriving DecidableEq, Repr

/-- IEEE 754 binary32. -/
def binary32 : Fmt := ⟨24, 8⟩

/-- IEEE 754 binary64. -/
def binary64 : Fmt := ⟨53, 11⟩

/-- The exponent of the least significant bit of a subnormal: -149 for binary32. -/
def fmtEmin (F : Fmt) : Int := 3 - 2 ^ (F.expBits - 1) - F.prec

/-- The encoding of +∞ without its sign bit: 0x7F800000 for binary32. -/
def fmtInf (F : Fmt) : Nat := (2 ^ F.expBits - 1) * 2 ^ (F.prec - 1)

/-- A number before it is narrowed: NaN, an infinity, or the exact value `±num/den * 2^exp` (a zero keeps its
sign). -/
inductive FpVal where
  | nan
  | inf (neg : Bool)
  | rat (neg : Bool) (num den : Nat) (exp : Int)
  deriving DecidableEq, Repr

/-- The number an encoding without its sign bit stands for. -/
def unpack (F : Fmt) (neg : Bool) (mag : Nat) : FpVal :=
  let e := mag / 2 ^ (F.prec - 1)
  let f := mag % 2 ^ (F.prec - 1)
  if e = 2 ^ F.expBits - 1 then (if f = 0 then .inf neg else .nan)
  else if e = 0 then .rat neg f 1 (fmtEmin F)
  else .rat neg (2 ^ (F.prec - 1) + f) 1 (fmtEmin F + (e : Int) - 1)

/-- `num / den` rounded to the nearest natural number, ties to even. -/
def divNearestEven (num den : Nat) : Nat :=
  let k := num / den
  let r := num % den
  if 2 * r < den then k else if den < 2 * r then k + 1 else k + k % 2

/-- `num / den * 2^t`, as a fraction without an exponent. -/
def scaleFrac (num den : Nat) (t : Int) : Nat × Nat :=
  if 0 ≤ t then (num * 2 ^ t.toNat, den) else (num, den * 2 ^ (-t).toNat)

/-- The exponent of the unit `num / den * 2^exp` is rounded to: the one that leaves `prec` significant bits, and
never below that of a subnormal. -/
def unitExp (F : Fmt) (num den : Nat) (exp : Int) : Int :=
  let q0 : Int := (Nat.log2 num : Int) - (Nat.log2 den : Int) + exp - F.prec
  let s := scaleFrac num den (exp - q0)
  let q := if s.1 / s.2 < 2 ^ F.prec then q0 else q0 + 1
  if q < fmtEmin F then fmtEmin F else q

/-- The encoding, without its sign bit, of `num / den * 2^exp` rounded to nearest, ties to even; a value that
rounds beyond the format's range gives the encoding of ∞. -/
def roundMag (F : Fmt) (num den : Nat) (exp : Int) : Nat :=
  if num = 0 then 0 else
    let q := unitExp F num den exp
    let s := scaleFrac num den (exp - q)
    min (fmtInf F) ((q - fmtEmin F).toNat * 2 ^ (F.prec - 1) + divNearestEven s.1 s.2)

/-- The negation, which is exact. -/
def numNeg : FpVal → FpVal
  | .nan => .nan
  | .inf n => .inf (!n)
  | .rat n a d e => .rat (!n) a d e

/-- The exact sum. An exact zero sum is `-0` only when both operands are negative (round to nearest). -/
def numAdd : FpVal → FpVal → FpVal
  | .nan, _ => .nan
  | _, .nan => .nan
  | .inf n, .inf m => if n = m then .inf n else .nan
  | .inf n, .rat .. => .inf n
  | .rat .., .inf m => .inf m
  | .rat n a d e, .rat m b c f =>
    let g := min e f
    let x := a * c * 2 ^ (e - g).toNat
    let y := b * d * 2 ^ (f - g).toNat
    if n = m then .rat n (x + y) (d * c) g
    else if x = y then .rat false 0 (d * c) g
    else if y < x then .rat n (x - y) (d * c) g
    else .rat m (y - x) (d * c) g

/-- The exact product. -/
def numMul : FpVal → FpVal → FpVal
  | .nan, _ => .nan
  | _, .nan => .nan
  | .inf n, .inf m => .inf (n != m)
  | .inf n, .rat m b _ _ => if b = 0 then .nan else .inf (n != m)
  | .rat n a _ _, .inf m => if a = 0 then .nan else .inf (n != m)
  | .rat n a d e, .rat m b c f => .rat (n != m) (a * b) (d * c) (e + f)

/-- The exact quotient; a nonzero number divided by zero is an infinity. -/
def numDiv : FpVal → FpVal → FpVal
  | .nan, _ => .nan
  | _, .nan => .nan
  | .inf _, .inf _ => .nan
  | .inf n, .rat m _ _ _ => .inf (n != m)
  | .rat n _ _ _, .inf m => .rat (n != m) 0 1 0
  | .rat n a d e, .rat m b c f =>
    if b = 0 then (if a = 0 then .nan else .inf (n != m))
    else .rat (n != m) (a * c) (d * b) (e - f)

/-- The exact order; false when either side is NaN. -/
def numLt : FpVal → FpVal → Bool
  | .nan, _ => false
  | _, .nan => false
  | .inf n, .inf m => n && !m
  | .inf n, .rat .. => n
  | .rat .., .inf m => !m
  | .rat n a d e, .rat m b c f =>
    let g := min e f
    let x : Int := (a * c * 2 ^ (e - g).toNat : Nat)
    let y : Int := (b * d * 2 ^ (f - g).toNat : Nat)
    decide ((if n then -x else x) < (if m then -y else y))

/-- `trunc`: a finite number rounded toward zero (R10). -/
def numTrunc : FpVal → Int
  | .nan => 0
  | .inf _ => 0
  | .rat n a d e =>
    let s := scaleFrac a d e
    if n then -((s.1 / s.2 : Nat) : Int) else ((s.1 / s.2 : Nat) : Int)

/-- The exact value of an integer. -/
def numOfInt (k : Int) : FpVal := .rat (decide (k < 0)) k.natAbs 1 0

/-- A binary32 encoding's value. -/
def val32 (b : F32) : FpVal := unpack binary32 b.msb (b.toNat % 2 ^ 31)

/-- A binary32 encoding from its sign and the rest. -/
def pack32 (neg : Bool) (mag : Nat) : F32 := BitVec.ofNat 32 (mag + if neg then 2 ^ 31 else 0)

/-- The quiet NaN whose sign and payload are draw number `d` (R10: NAN_PAYLOAD). -/
def quietNaN (d : Nat) : F32 :=
  (Config.nanPayload d).extractLsb' 22 1 ++ ((0x1FF : BitVec 9) ++ (Config.nanPayload d).extractLsb' 0 22)

/-- Narrowing an exact result to binary32. A NaN result is draw number `d`. -/
def round32 (d : Nat) : FpVal → F32
  | .nan => quietNaN d
  | .inf n => pack32 n (fmtInf binary32)
  | .rat n a c e => pack32 n (roundMag binary32 a c e)

/-- `fadd(a, b)` (R10); `d` numbers the draw a NaN result takes. -/
def fadd (d : Nat) (a b : F32) : F32 := round32 d (numAdd (val32 a) (val32 b))

/-- `fmul(a, b)` (R10). -/
def fmul (d : Nat) (a b : F32) : F32 := round32 d (numMul (val32 a) (val32 b))

/-- `fdiv(a, b)` (R10). -/
def fdiv (d : Nat) (a b : F32) : F32 := round32 d (numDiv (val32 a) (val32 b))

/-- `i2f(k)` (R10): exact for |k| <= 2^24. -/
def i2f (k : Int) : F32 := round32 0 (numOfInt k)

/-- The value is a NaN. -/
def isNaN32 (b : F32) : Bool := decide (fmtInf binary32 < b.toNat % 2 ^ 31)

/-- `isFinite(v)`: neither an infinity nor a NaN (R10). -/
def isFinite32 (b : F32) : Bool := decide (b.toNat % 2 ^ 31 < fmtInf binary32)

/-- All five coefficients are finite (R105). -/
def coefFinite (c : Coef) : Bool :=
  isFinite32 c.b0 && isFinite32 c.b1 && isFinite32 c.b2 && isFinite32 c.a1 && isFinite32 c.a2

end Sys2Proof.Machine
end

