-- ==== Sys2Proof/Machine/Ref64.lean ====
section
/-! DEFINITION. REF64, the reference DESIGN (41_coefficient_designer.md rules R102 to R104): the peaking-EQ
equations in binary64, step by step, and the correctly rounded `pow(10, y)`, `sin` and `cos` it takes. Each of the
three is computed in fixed point with a bound on its error; a rounding is accepted when both ends of the bound
round to the same binary64 value, and tried again with more bits otherwise (notes/assumptions/7.md). -/

namespace Sys2Proof.Machine

/-- Rounding to binary64, nearest, ties to even. -/
def round64 : FpVal → FpVal
  | .nan => .nan
  | .inf n => .inf n
  | .rat n a d e => unpack binary64 n (roundMag binary64 a d e)

/-- The binary64 operations of REF64, each rounded once. -/
def add64 (a b : FpVal) : FpVal := round64 (numAdd a b)
/-- See `add64`. -/
def sub64 (a b : FpVal) : FpVal := round64 (numAdd a (numNeg b))
/-- See `add64`. -/
def mul64 (a b : FpVal) : FpVal := round64 (numMul a b)
/-- See `add64`. -/
def div64 (a b : FpVal) : FpVal := round64 (numDiv a b)

/-! ### Fixed-point constants -/

/-- The sum of `t / (2k+1)` over `fuel` terms, `t` falling by `m2` from each term to the next; the signs
alternate when `alt`. Terms of even and odd index are summed apart. -/
def oddSeries (m2 : Nat) : Nat → Nat → Nat → Nat × Nat
  | 0, _, _ => (0, 0)
  | fuel + 1, k, t =>
    if t = 0 then (0, 0) else
      let rest := oddSeries m2 fuel (k + 1) (t / m2)
      (t / (2 * k + 1) + rest.2, rest.1)

/-- `2^p * atan(1/m)`, from below and above by at most the number of terms. -/
def atanInv (p m : Nat) : Nat :=
  let s := oddSeries (m * m) p 0 (2 ^ p / m)
  s.1 - s.2

/-- `2^p * atanh(1/m)`. -/
def atanhInv (p m : Nat) : Nat :=
  let s := oddSeries (m * m) p 0 (2 ^ p / m)
  s.1 + s.2

/-- `2^p * 2π`, by Machin's formula with 32 guard bits. -/
def twoPiFix (p : Nat) : Nat := (32 * atanInv (p + 32) 5 - 8 * atanInv (p + 32) 239) / 2 ^ 32

/-- `2^p * ln 2 = 2^p * 2 atanh(1/3)`. -/
def ln2Fix (p : Nat) : Nat := 2 * atanhInv (p + 32) 3 / 2 ^ 32

/-- `2^p * ln 10 = 2^p * (6 atanh(1/3) + 2 atanh(1/9))`. -/
def ln10Fix (p : Nat) : Nat := (6 * atanhInv (p + 32) 3 + 2 * atanhInv (p + 32) 9) / 2 ^ 32

/-! ### Fixed-point series -/

/-- Terms `t_k` with `t_(k+1) = t_k * x / (2^p * (a * (a+1)))`, `a` rising by 2: the sums of the terms of even and
of odd index. -/
def stepTwoSeries (p x : Nat) : Nat → Nat → Nat → Nat × Nat
  | 0, _, _ => (0, 0)
  | fuel + 1, a, t =>
    if t = 0 then (0, 0) else
      let rest := stepTwoSeries p x fuel (a + 2) (t * x / (2 ^ p * (a * (a + 1))))
      (t + rest.2, rest.1)

/-- The sum of `t_k` with `t_(k+1) = t_k * x / (2^p * a)`, `a` rising by 1. -/
def expSeries (p x : Nat) : Nat → Nat → Nat → Nat
  | 0, _, _ => 0
  | fuel + 1, a, t => if t = 0 then 0 else t + expSeries p x fuel (a + 1) (t * x / (2 ^ p * a))

/-- `2^p * sin(r)` for `r` in [0, 2π) given as `2^p * r`. -/
def sinFix (p r : Nat) : Int :=
  let s := stepTwoSeries p (r * r / 2 ^ p) (p + 40) 2 r
  (s.1 : Int) - s.2

/-- `2^p * cos(r)`, likewise. -/
def cosFix (p r : Nat) : Int :=
  let s := stepTwoSeries p (r * r / 2 ^ p) (p + 40) 1 (2 ^ p)
  (s.1 : Int) - s.2

/-- `2^p * exp(r)` for `r` in [0, 1) given as `2^p * r`. -/
def expFix (p r : Nat) : Nat := expSeries p r (p + 40) 1 (2 ^ p)

/-- The bound on the error of a fixed-point result, in units of its last place. -/
def fixErr : Nat := 2 ^ 24

/-- Guard bits of the argument reduction: more than the bits of the argument's quotient by 2π. -/
def reduceGuard (num : Nat) (exp : Int) : Nat := 64 + Nat.log2 num + exp.toNat

/-- The argument `num / den * 2^exp` reduced modulo 2π, as `2^p * r`. -/
def reduceTwoPi (p num den : Nat) (exp : Int) : Nat :=
  let g := reduceGuard num exp
  let q := p + g
  let s := scaleFrac num den (exp + q)
  s.1 / s.2 % twoPiFix q / 2 ^ g

/-! ### Correct rounding -/

/-- A signed fixed-point result as a number. -/
def fixNum (p : Nat) (v : Int) : FpVal := .rat (decide (v < 0)) v.natAbs 1 (-(p : Int))

/-- The binary64 value that every number within `fixErr` of `2^-p * v` rounds to, if there is one. -/
def decideRound (p : Nat) (v : Int) : Option FpVal :=
  let lo := round64 (fixNum p (v - fixErr))
  let hi := round64 (fixNum p (v + fixErr))
  if lo = hi then some hi else none

/-- Rounding by a computation with more and more bits; after the last try the nearest value to the computed one
stands (notes/assumptions/7.md). -/
def ziv (f : Nat → Int) : Nat → Nat → FpVal
  | 0, p => round64 (fixNum p (f p))
  | tries + 1, p =>
    match decideRound p (f p) with
    | some r => r
    | none => ziv f tries (2 * p)

/-- How many bits to start with, for an argument whose last bit is `2^exp`. -/
def startBits (exp : Int) : Nat := 320 + (-exp).toNat

/-- Correctly rounded binary64 `sin`. -/
def sin64 : FpVal → FpVal
  | .nan => .nan
  | .inf _ => .nan
  | .rat n a d e =>
    if a = 0 then .rat n a d e
    else
      let r := ziv (fun p => sinFix p (reduceTwoPi p a d e)) 3 (startBits e)
      if n then numNeg r else r

/-- Correctly rounded binary64 `cos`. -/
def cos64 : FpVal → FpVal
  | .nan => .nan
  | .inf _ => .nan
  | .rat _ a d e =>
    if a = 0 then .rat false 1 1 0
    else ziv (fun p => cosFix p (reduceTwoPi p a d e)) 3 (startBits e)

/-- `10^(num / den * 2^exp)`, as a fixed-point number and a power of two. -/
def pow10Fix (p num den : Nat) (exp : Int) : Nat × Int :=
  let s := scaleFrac num den (exp + p)
  let z := s.1 / s.2 * ln10Fix p / 2 ^ p
  (expFix p (z % ln2Fix p), ((z / ln2Fix p : Nat) : Int) - p)

/-- The binary64 values that the two ends of an enclosure of `10^±(num / den * 2^exp)` round to, with `p` bits. -/
def pow10Try (neg : Bool) (num den : Nat) (exp : Int) (p err : Nat) : FpVal × FpVal :=
  let v := pow10Fix p num den exp
  if neg then (round64 (.rat false 1 (v.1 + err) (-v.2)), round64 (.rat false 1 (v.1 - err) (-v.2)))
  else (round64 (.rat false (v.1 - err) 1 v.2), round64 (.rat false (v.1 + err) 1 v.2))

/-- Correct rounding of `10^±(num / den * 2^exp)`, as `ziv`. -/
def pow10Ziv (neg : Bool) (num den : Nat) (exp : Int) : Nat → Nat → FpVal
  | 0, p => (pow10Try neg num den exp p 0).1
  | tries + 1, p =>
    let b := pow10Try neg num den exp p fixErr
    if b.1 = b.2 then b.1 else pow10Ziv neg num den exp tries (2 * p)

/-- Correctly rounded binary64 `pow(10, y)`. An integer `y` is computed exactly, and beyond ±400 the result is an
infinity or `+0`. -/
def pow10_64 : FpVal → FpVal
  | .nan => .nan
  | .inf n => if n then .rat false 0 1 0 else .inf false
  | .rat n a d e =>
    let s := scaleFrac a d e
    if 400 < s.1 / s.2 then (if n then .rat false 0 1 0 else .inf false)
    else if s.1 % s.2 = 0 then
      (if n then round64 (.rat false 1 (10 ^ (s.1 / s.2)) 0) else round64 (.rat false (10 ^ (s.1 / s.2)) 1 0))
    else pow10Ziv n a d e 3 (startBits e)

/-! ### The design equations -/

/-- PI64: the binary64 value nearest to π, 0x400921FB54442D18 (R104). -/
def pi64 : FpVal := unpack binary64 false 0x400921FB54442D18

/-- `round32` of R104. A NaN keeps no payload: a design with one is not finite, and is never installed (R105). -/
def narrow32 : FpVal → F32
  | .nan => 0x7FC00000
  | .inf n => pack32 n (fmtInf binary32)
  | .rat n a d e => pack32 n (roundMag binary32 a d e)

/-- REF64 (R104): `maxBoost` is MAX_BOOST_DB, and the five values are `(b0, b1, b2, a1, a2)`. -/
def ref64 (maxBoost : Nat) (rate : Int) (g f q : F32) : Coef :=
  let one := numOfInt 1
  let gainDb := mul64 (numOfInt maxBoost) (val32 g)
  let amp := pow10_64 (div64 gainDb (numOfInt 40))
  let w0 := div64 (mul64 (mul64 (numOfInt 2) pi64) (val32 f)) (numOfInt rate)
  let sn := sin64 w0
  let cs := cos64 w0
  let alpha := div64 sn (mul64 (numOfInt 2) (val32 q))
  let up := mul64 alpha amp
  let down := div64 alpha amp
  let b0r := add64 one up
  let b1r := mul64 (numOfInt (-2)) cs
  let b2r := sub64 one up
  let a0r := add64 one down
  let a1r := mul64 (numOfInt (-2)) cs
  let a2r := sub64 one down
  ⟨narrow32 (div64 b0r a0r), narrow32 (div64 b1r a0r), narrow32 (div64 b2r a0r),
    narrow32 (numNeg (div64 a1r a0r)), narrow32 (numNeg (div64 a2r a0r))⟩

end Sys2Proof.Machine
end

