-- ==== Sys2Proof/Machine/Designer.lean ====
section
/-! DEFINITION. The Coefficient Designer and SETPARAMS (41_coefficient_designer.md rules R100 to R109). -/

namespace Sys2Proof.Machine

/-- DESIGN of this platform (R104): REF64, or the implementation's own total function, of which nothing is assumed but
that it depends on these inputs alone (R7; notes/assumptions/6.md). -/
def design (plat : Platform) (rate : Int) (g f q : F32) : Coef :=
  match plat.designer with
  | .reference => ref64 Config.maxBoostDb rate g f q
  | .implementation => Config.design Config.maxBoostDb rate g f q

/-- The design SETPARAMS asks for: no operand is range-checked, and the rate is its own A0 (R101). -/
def designOf (s : State) : Coef := design s.plat (sint32 s.a0) s.a1 s.a2 s.a3

/-- Installing a design in both channels; the history stays (R106). -/
def installed (sl : Slot) (c : Coef) : Slot := { sl with coef0 := c, coef1 := c }

/-- SETPARAMS (R100): a non-finite design is not installed and marks the instance (R105, R107). -/
def execSetparams (h : Handle) (s : State) : Host.Outcome State Fault Refusal :=
  match liveSlot s h with
  | none => .next (raise .useAfterRelease s)
  | some sl =>
    if sl.numFault then .next (raise .numericInstability s)
    else if coefFinite (designOf s) then
      .next (finish (setSlot s (handleSlot h) (installed sl (designOf s))))
    else .next (raise .numericInstability (setSlot s (handleSlot h) { sl with numFault := true }))

end Sys2Proof.Machine
end

