-- ==== Sys2Proof/Machine/Lifecycle.lean ====
section
/-! DEFINITION. CONFIGURE, RESET, RELEASE and ILLEGAL (44_lifecycle.md). -/

namespace Sys2Proof.Machine

/-- CONFIGURE (R190): the argument checks (R193) come before the free-slot check (R224). -/
def execConfigure (s : State) : Host.Outcome State Fault Refusal :=
  if sint32 s.a1 ≠ 2 ∨ sint32 s.a0 ≤ 0 then .next (raise .invalidArgument { s with result := 0xFFFFFFFF })
  else
    match freeSlot s with
    | none => .next (raise .noFreeSlot { s with result := 0xFFFFFFFF })
    | some i =>
      let sl := s.slots.getD i Slot.reset
      .next (finish { setSlot s i (configuredSlot sl s.a0 s.a2) with
        result := (0 : BitVec 16) ++ mkHandle sl.gen i })

/-- RESET (R195): both histories of a live, unfaulted instance become `+0.0` (R196). -/
def execReset (h : Handle) (s : State) : Host.Outcome State Fault Refusal :=
  match liveSlot s h with
  | none => .next (raise .useAfterRelease s)
  | some sl =>
    if sl.numFault then .next (raise .numericInstability s)
    else .next (finish (setSlot s (handleSlot h) { sl with hist0 := Hist.zero, hist1 := Hist.zero }))

/-- RELEASE (R198): a faulted instance may be released too. -/
def execRelease (h : Handle) (s : State) : Host.Outcome State Fault Refusal :=
  match liveSlot s h with
  | none => .next (raise .useAfterRelease s)
  | some sl => .next (finish (setSlot s (handleSlot h) (releasedSlot sl)))

/-- ILLEGAL (R201): no operand of the word is read. -/
def execIllegal (_w : Word) (s : State) : Host.Outcome State Fault Refusal :=
  .next (raise .illegalCommand s)

end Sys2Proof.Machine
end

