-- ==== Sys2Proof/Machine/Biquad.lean ====
section
/-! DEFINITION. The Biquad State Machine (42_biquad.md): one sample of the recurrence, and the two filter
operations PROCESS runs on a channel. The argument `d` is the first of the draw numbers the operation may use
(notes/assumptions/5.md): an arithmetic step takes its number whether or not its result is a NaN. -/

namespace Sys2Proof.Machine

/-- How many draw numbers one sample uses: nine arithmetic steps of BQ_STEP and three of the integer conversions. -/
def drawsPerSample : Nat := 12

/-- BQ_STEP (R131): products and sums in the order written, each rounded once (R132). DEDUCED: a zero's sign is the one
R131 and R133 give, also where the derived remarks R141 and R173 give another (notes/assumptions/15.md). -/
def bqStep (d : Nat) (c : Coef) (h : Hist) (x : F32) : F32 × Hist :=
  let t := fmul d c.b0 x
  let t := fadd (d + 2) t (fmul (d + 1) c.b1 h.x1)
  let t := fadd (d + 4) t (fmul (d + 3) c.b2 h.x2)
  let t := fadd (d + 6) t (fmul (d + 5) c.a1 h.y1)
  let y := fadd (d + 8) t (fmul (d + 7) c.a2 h.y2)
  (y, ⟨x, h.x1, y, h.y1⟩)

/-- FILTER_F32 (R134): the outputs in order, and the channel's new history. -/
def filterF32 (d : Nat) (c : Coef) (h : Hist) : List F32 → List F32 × Hist
  | [] => ([], h)
  | x :: xs =>
    let r := bqStep d c h x
    let rest := filterF32 (d + drawsPerSample) c r.2 xs
    (r.1 :: rest.1, rest.2)

/-- INT16_CEIL = 32767.0 (R6). -/
def int16Ceil : F32 := 0x46FFFE00

/-- INT16_MIN = -32768.0 (R6). -/
def int16MinF : F32 := 0xC7000000

/-- The integer input conversion (R137). -/
def normalise (d : Nat) (k : Int) : F32 := fdiv (d + 9) (i2f k) int16Ceil

/-- SAT16 (R138): scale, clamp, truncate toward zero; a NaN gives a drawn int16 (R139). The scaled value is a NaN
exactly when `y` is one. -/
def sat16 (d : Nat) (y : F32) : Int :=
  let v := val32 (fmul (d + 10) y int16Ceil)
  if v = .nan then (Config.nanInt16 (d + 11)).toInt
  else if numLt v (val32 int16MinF) then numTrunc (val32 int16MinF)
  else if numLt (val32 int16Ceil) v then numTrunc (val32 int16Ceil)
  else numTrunc v

/-- FILTER_I16 (R135). The history keeps the normalised input and the unclamped output (R136). -/
def filterI16 (d : Nat) (c : Coef) (h : Hist) : List Int → List Int × Hist
  | [] => ([], h)
  | k :: ks =>
    let r := bqStep d c h (normalise d k)
    let rest := filterI16 (d + drawsPerSample) c r.2 ks
    (sat16 d r.1 :: rest.1, rest.2)

end Sys2Proof.Machine
end

