-- ==== Sys2Proof/Machine/Process.lean ====
section
/-! DEFINITION. The Stereo Buffer Adapter and the three PROCESS rows (43_stereo_adapter.md). -/

namespace Sys2Proof.Machine

/-- `read_samples` (R163): the encodings of `cnt` samples of `w` bytes from `base` on. -/
def readSamples (m : List Host.Cell) (base w : Nat) : Nat → List Nat
  | 0 => []
  | cnt + 1 => readLE m base w :: readSamples m (base + w) w cnt

/-- `write_samples` (R166): the encodings one after another from `base` on. -/
def writeSamples (m : List Host.Cell) (base w : Nat) : List Nat → List Host.Cell
  | [] => m
  | v :: vs => writeSamples (writeLE m base w v) (base + w) w vs

/-- The left run: samples 0, 2, 4, ... (R164). -/
def leftRun : List Nat → List Nat
  | l :: _ :: rest => l :: leftRun rest
  | [l] => [l]
  | [] => []

/-- The right run: samples 1, 3, 5, ... (R164). -/
def rightRun : List Nat → List Nat
  | _ :: r :: rest => r :: rightRun rest
  | [_] => []
  | [] => []

/-- `interleave` (R166). -/
def interleave : List Nat → List Nat → List Nat
  | l :: ls, r :: rs => l :: r :: interleave ls rs
  | [], _ => []
  | _ :: _, [] => []

/-- FILTER_I16 on encoded samples: `sint16` in, two's complement out (R163, R166). -/
def channelI16 (d : Nat) (c : Coef) (h : Hist) (run : List Nat) : List Nat × Hist :=
  let r := filterI16 d c h (run.map (fun v => (BitVec.ofNat 16 v).toInt))
  (r.1.map (fun k => (BitVec.ofInt 16 k).toNat), r.2)

/-- FILTER_F32 on encoded samples: the encodings as they are, in and out (R163, R166). -/
def channelF32 (d : Nat) (c : Coef) (h : Hist) (run : List Nat) : List Nat × Hist :=
  let r := filterF32 d c h (run.map (BitVec.ofNat 32))
  (r.1.map BitVec.toNat, r.2)

/-- The filter operation of a format (R160). -/
def channelFilter (fmt : BitVec 8) (d : Nat) (c : Coef) (h : Hist) (run : List Nat) : List Nat × Hist :=
  if fmt = 0x02 then channelI16 d c h run else channelF32 d c h run

/-- The checks of PROCESS in their order (R160, R161, R224): the first that fails gives the status, and the slot
is the live instance's when none does. -/
def processCheck (fmt : BitVec 8) (h : Handle) (s : State) : Except Status Slot :=
  match liveSlot s h with
  | none => .error .useAfterRelease
  | some sl =>
    if sl.numFault then .error .numericInstability
    else if !viewsOk s.plat (viewsOf s) then .error .invalidArgument
    else if !rangeOk (viewsOf s) then .error .invalidArgument
    else if !fmtSupported fmt then .error .unsupportedEncoding
    else if !lengthOk (viewsOf s) (sampleWidth fmt) then .error .invalidArgument
    else .ok sl

/-- The samples PROCESS reads, all of them before any write (R61, R163). -/
def processInput (fmt : BitVec 8) (s : State) : List Nat :=
  let v := viewsOf s
  readSamples s.mem (v.inBase + v.pos.toNat) (sampleWidth fmt) (sampleCount v (sampleWidth fmt))

/-- The left channel's outputs and new history (R165). -/
def processLeft (fmt : BitVec 8) (sl : Slot) (s : State) : List Nat × Hist :=
  channelFilter fmt s.draws sl.coef0 sl.hist0 (leftRun (processInput fmt s))

/-- The right channel's outputs and new history (R165). Its draw numbers follow the left channel's. -/
def processRight (fmt : BitVec 8) (sl : Slot) (s : State) : List Nat × Hist :=
  channelFilter fmt (s.draws + drawsPerSample * (leftRun (processInput fmt s)).length) sl.coef1 sl.hist1
    (rightRun (processInput fmt s))

/-- The effect of a PROCESS whose checks have all passed (R160, R166): the interleaved outputs from the output
view's start on, and both histories as one unit. -/
def processRun (fmt : BitVec 8) (h : Handle) (sl : Slot) (s : State) : State :=
  let l := processLeft fmt sl s
  let r := processRight fmt sl s
  let out := writeSamples s.mem (viewsOf s).outBase (sampleWidth fmt) (interleave l.1 r.1)
  setSlot { s with mem := out, draws := s.draws + drawsPerSample * (processInput fmt s).length }
    (handleSlot h) { sl with hist0 := l.2, hist1 := r.2 }

/-- PROCESS, the whole operation (R160). -/
def process (fmt : BitVec 8) (h : Handle) (s : State) : State :=
  match processCheck fmt h s with
  | .error e => raise e s
  | .ok sl => finish (processRun fmt h sl s)

/-- PROCESS.PCM16 (R170). -/
def execProcessPcm16 (h : Handle) (s : State) : Host.Outcome State Fault Refusal :=
  .next (process 0x02 h s)

/-- PROCESS.PCMFLOAT (R171). -/
def execProcessPcmfloat (h : Handle) (s : State) : Host.Outcome State Fault Refusal :=
  .next (process 0x04 h s)

/-- PROCESS.FMT<n> (R172): the checks of R160 up to the format's, which ends it. -/
def execProcessFmt (fmt : BitVec 8) (h : Handle) (s : State) : Host.Outcome State Fault Refusal :=
  .next (process fmt h s)

end Sys2Proof.Machine
end

