-- ==== Sys2Proof/Machine/Dispatch.lean ====
section
/-! DEFINITION. One arm for each command (30_encoding.md rule R72): a direct call of its meaning. -/

namespace Sys2Proof.Machine

def exec (i : Instr) (s : State) : Host.Outcome State Fault Refusal :=
  match i with
  | .configure => Sys2Proof.Machine.execConfigure s
  | .setparams h => Sys2Proof.Machine.execSetparams h s
  | .processPcm16 h => Sys2Proof.Machine.execProcessPcm16 h s
  | .processPcmfloat h => Sys2Proof.Machine.execProcessPcmfloat h s
  | .processFmt fmt h => Sys2Proof.Machine.execProcessFmt fmt h s
  | .reset h => Sys2Proof.Machine.execReset h s
  | .release h => Sys2Proof.Machine.execRelease h s
  | .illegal w => Sys2Proof.Machine.execIllegal w s

end Sys2Proof.Machine
end

