-- ==== Sys2Proof/Machine/Bus.lean ====
section
/-! DEFINITION. The host's side of the block: what each host access does (10_state.md rule R39, 30_encoding.md rule
R70), and the host duties the model refuses to see broken (70_reset_and_hazards.md rule R256). -/

namespace Sys2Proof.Machine

/-- Why the register bus gives an access no meaning (R39): it is outside the window, or it is not 32 bits wide, or
not aligned (notes/assumptions/12.md). -/
def accessError (s : State) (addr width : Nat) : Option Refusal :=
  if addr < s.plat.regBase ∨ s.plat.regBase + 0x40 ≤ addr then some .outsideWindow
  else if width ≠ 32 ∨ (addr - s.plat.regBase) % 4 ≠ 0 then some .busAccess
  else none

/-- The duty a register write by `agent` breaks (R256): H1, writing an argument register while the agent's own
STATUS is unread; H2, writing the window during another agent's command, which lasts from its argument writes to its
STATUS read (R233; notes/assumptions/4.md). H3 to H5 cannot be broken here (notes/assumptions/8.md), and H6 is
`commandDuty`'s. -/
def dutyError (s : State) (agent off : Nat) : Option Refusal :=
  match s.session with
  | .idle => none
  | .args a => if a = agent then none else some .dutyH2
  | .due a => if a ≠ agent then some .dutyH2 else if isArgOffset off then some .dutyH1 else none

/-- A read of STATUS by the agent whose command ended closes that command (R256 H1). -/
def sessionAfterRead (ss : Session) (agent off : Nat) : Session :=
  if off = 0x1C ∧ ss = .due agent then .idle else ss

/-- A register read (R39). -/
def busRead (agent addr width : Nat) (s : State) : Host.Outcome State Fault Refusal :=
  match accessError s addr width with
  | some r => .refused r
  | none =>
    let off := addr - s.plat.regBase
    .next { s with readData := some (readReg s off), session := sessionAfterRead s.session agent off }

/-- The command names a handle that was released and names a live instance again, after a generation wrap (R256 H6,
R32; notes/assumptions/9.md). -/
def namesStale (i : Instr) (s : State) : Bool :=
  match handleOf i with
  | some h => decide (h ∈ s.released) && (liveSlot s h).isSome
  | none => false

/-- Every argument register the command uses has been written (R256 H1; notes/assumptions/4.md). -/
def argsReady (i : Instr) (s : State) : Bool := (List.range (argCount i)).all (fun k => decide (k ∈ s.written))

/-- The duty that issuing a command breaks (R256). -/
def commandDuty (i : Instr) (s : State) : Option Refusal :=
  if !argsReady i s then some .dutyH1 else if namesStale i s then some .dutyH6 else none

/-- The released handles once the command has ended: a RELEASE of a live handle ends with OK (R198). -/
def releasedAfter (i : Instr) (s : State) : List Handle :=
  match i with
  | .release h => if (liveSlot s h).isSome then h :: s.released else s.released
  | .configure | .setparams _ | .processPcm16 _ | .processPcmfloat _ | .processFmt _ _ | .reset _ | .illegal _ =>
    s.released

/-- The state a command starts in: CMD holds its word (R70), and the duty monitor has noted it. -/
def issue (agent : Nat) (w : Word) (s : State) : State :=
  { s with cmd := w, session := .due agent, released := releasedAfter (decode w) s }

/-- A write to CMD: the block stores the word, decodes it and runs the command to its end (R39, R70). -/
def cmdWrite (agent : Nat) (w : Word) (s : State) : Host.Outcome State Fault Refusal :=
  match commandDuty (decode w) s with
  | some r => .refused r
  | none => exec (decode w) (issue agent w s)

/-- A write to any other offset: an argument register stores it, and begins the agent's command; the other offsets
ignore it (R39). -/
def argWrite (agent off : Nat) (v : Word) (s : State) : State :=
  if isArgOffset off then
    { writeArg s off v with session := .args agent, written := s.written.insert ((off - 4) / 4) }
  else s

/-- A register write (R39). -/
def busWrite (agent addr width : Nat) (v : Word) (s : State) : Host.Outcome State Fault Refusal :=
  match accessError s addr width with
  | some r => .refused r
  | none =>
    let off := addr - s.plat.regBase
    match dutyError s agent off with
    | some r => .refused r
    | none => if off = 0 then cmdWrite agent v s else .next (argWrite agent off v s)

/-- A byte the host places in the data space; an address at or above 2^ADDR_BITS does not exist (R50;
notes/assumptions/11.md). -/
def hostDataWrite (addr : Nat) (v : Byte) (s : State) : Host.Outcome State Fault Refusal :=
  if addr < 2 ^ s.plat.addrBits then .next { s with mem := writeByte s.mem addr v } else .fault .noSuchAddress

/-- What one host access does. -/
def hostEvent (e : HostEvent) (s : State) : Host.Outcome State Fault Refusal :=
  match e with
  | .regRead agent addr width => busRead agent addr width s
  | .regWrite agent addr width v => busWrite agent addr width v s
  | .dataWrite addr v => hostDataWrite addr v s
  | .powerOnReset => .next (powerOnReset s)

/-- The agent that may write CMD next: the one whose command has begun, or agent 0. -/
def cmdAgent (s : State) : Nat :=
  match s.session with
  | .idle => 0
  | .args a => a
  | .due a => a

/-- The state in which duties H1 and H6 let a command be issued: its argument registers count as written, with the
values they hold, and its handle as never released (notes/assumptions/3.md). -/
def dutiesMet (i : Instr) (s : State) : State :=
  { s with
    written := List.range (argCount i) ∪ s.written
    released := s.released.filter (fun h => decide (handleOf i ≠ some h)) }

/-- The host access that issues a command word. -/
def cmdEvent (s : State) (w : Word) : HostEvent := .regWrite (cmdAgent s) s.plat.regBase 32 w

end Sys2Proof.Machine
end

