-- ==== Sys2Proof/Machine/Step.lean ====
section
/-! DEFINITION. One step of the machine: the next host access is done, and a CMD write runs its command to its end
in the same step (30_encoding.md rule R70). With no access pending the block is idle, and idling changes no state
(60_exceptions.md rule R235, 70_reset_and_hazards.md rule R251). There is no time (notes/assumptions/13.md), and the
driver and the assembler stand on the host's side (notes/assumptions/14.md). -/

namespace Sys2Proof.Machine

def step (s : State) : Host.Outcome State Fault Refusal :=
  match s.host with
  | [] => .next s
  | e :: rest => hostEvent e { s with host := rest }

/-- The state whose next step issues the command word of `tableWord nbits w`: a CMD write in front of the other
host accesses, its duties met. The block fetches nothing (R35, R65), so the host access list is where a command comes
from. -/
def State.withFetchWord (s : State) (nbits w : Nat) : State :=
  match tableWord nbits w with
  | some v => { dutiesMet (decode v) s with host := cmdEvent s v :: s.host }
  | none => s

end Sys2Proof.Machine
end

