-- ==== Sys2Proof/Safety.lean ====
section
/-! DEFINITION. What a sound state and a clean run are: the invariant every step keeps, and the premises of
60_exceptions.md rule R225 and 70_reset_and_hazards.md rule R255. -/

namespace Sys2Proof.Machine

/-- A FREE slot's fields are zero, its generation apart (R27, R199). -/
def freeSlotZero (sl : Slot) : Prop :=
  sl.state = .free → sl = { Slot.reset with gen := sl.gen }

/-- What holds of every slot: equal coefficients in both channels (R29), all of them finite (R105), and nothing
left in a FREE slot (R199). -/
def slotSound (sl : Slot) : Prop :=
  sl.coef0 = sl.coef1 ∧ coefFinite sl.coef0 = true ∧ freeSlotZero sl

/-- Not all five coefficients have their sign bit set. -/
def someSignClear (c : Coef) : Prop :=
  c.b0.msb = false ∨ c.b1.msb = false ∨ c.b2.msb = false ∨ c.a1.msb = false ∨ c.a2.msb = false

/-- The data space is in canonical form and within its ADDR_BITS (R50). -/
def memSound (p : Platform) (m : List Host.Cell) : Prop :=
  memWf m = true ∧ ∀ c ∈ m, c.1 < 2 ^ p.addrBits

/-- RESULT holds a 16-bit handle, or 0xFFFFFFFF after a failed CONFIGURE (R24). -/
abbrev resultSound (w : Word) : Prop := w = 0xFFFFFFFF ∨ w.extractLsb' 16 16 = 0

/-- The invariant: a platform within R7 and R51, N_SLOTS slots (R27), sound slots, a sound data space, a status code of
R221 with STATUS[31:8] = 0 (R23), FAULT[31:3] = 0 (R25), RESULT as R24 says, under REF64 no coefficients that are all
negative (R102, R103: `a1 = -b1`), and a duty monitor that notes each of the six argument registers and each released
handle at most once. -/
structure State.Inv (s : State) : Prop where
  platform : s.plat.wf = true
  slotCount : s.slots.length = s.plat.nSlots
  slots : ∀ sl ∈ s.slots, slotSound sl
  signs : s.plat.designer = .reference → ∀ sl ∈ s.slots, someSignClear sl.coef0
  memory : memSound s.plat s.mem
  status : s.status.toNat ≤ 6
  fault : s.fault.toNat ≤ 7
  result : resultSound s.result
  written : s.written.Nodup ∧ ∀ k ∈ s.written, k < 6
  released : s.released.Nodup

/-- CleanBlock (R255): FAULT = 0 and every slot FREE. -/
def State.CleanBlock (s : State) : Prop := s.fault = 0 ∧ ∀ sl ∈ s.slots, sl.state = .free

/-- "FAULT = 0 at the end" (R225): no command of the run ended in a programming error. -/
def State.NoFault (s : State) : Prop := s.fault = 0

/-! ### The terms claims are stated in -/

/-- A handle names a live instance, whose slot is `sl` (R28). -/
abbrev namesLive (s : State) (h : Handle) (sl : Slot) : Prop :=
  handleSlot h < s.plat.nSlots ∧ s.slots[handleSlot h]? = some sl ∧ sl.state = .live ∧ sl.gen = handleGen h

/-- Any other handle is absent (R28). -/
def absentHandle (s : State) (h : Handle) : Prop := ∀ sl, ¬ namesLive s h sl

/-- The generation of a handle's slot is not the handle's: it has moved on since a RELEASE (R28, R199). -/
def generationMoved (s : State) (h : Handle) : Prop :=
  ∃ sl, s.slots[handleSlot h]? = some sl ∧ sl.gen ≠ handleGen h

/-- Every argument register in the command's row of R73 has been written since power-on reset: the first half of H1
(R256). -/
abbrev argsWritten (i : Instr) (s : State) : Prop := ∀ k, k < argCount i → k ∈ s.written

/-- A view with base `p` and capacity `cap` is addressable (R51), and its base is an address (R74). -/
abbrev viewAddressable (plat : Platform) (p : Nat) (cap : Int) : Prop :=
  p ≠ 0 ∧ 0 ≤ cap ∧ p < 2 ^ plat.addrBits ∧ plat.memBase ≤ p
    ∧ (p : Int) + cap ≤ (plat.memBase : Int) + (plat.memSize : Int)

/-- Both views of PROCESS are non-null and addressable (R161 (a)). -/
abbrev viewsAddressable (s : State) : Prop :=
  viewAddressable s.plat s.a0.toNat s.a3.toInt ∧ viewAddressable s.plat s.a4.toNat s.a5.toInt

/-- `0 <= pos <= lim <= inCap` (R161 (b)). -/
abbrev rangeWellFormed (s : State) : Prop :=
  0 ≤ s.a1.toInt ∧ s.a1.toInt ≤ s.a2.toInt ∧ s.a2.toInt ≤ s.a3.toInt

/-- `len = lim - pos` (R162). -/
def processLen (s : State) : Int := s.a2.toInt - s.a1.toInt

/-- Whole samples of `w` bytes, an even number of them, and room for the output (R161 (c)). -/
abbrev lengthFits (w : Nat) (s : State) : Prop :=
  processLen s % w = 0 ∧ (processLen s / w) % 2 = 0 ∧ processLen s ≤ s.a5.toInt

/-- A PROCESS of `w`-byte samples that no check of R161 turns away. -/
abbrev processAccepted (w : Nat) (s : State) : Prop :=
  viewsAddressable s ∧ rangeWellFormed s ∧ lengthFits w s

/-- The number of stereo frames of `w`-byte samples (R162). -/
def frameCount (w : Nat) (s : State) : Nat := (processLen s / (2 * w : Nat)).toNat

/-- The encoding of the left sample of frame `j` in the input view (R163, R164). -/
def leftIn (w : Nat) (s : State) (j : Nat) : Nat := readLE s.mem (s.a0.toNat + s.a1.toNat + 2 * w * j) w

/-- The encoding of the right sample of frame `j` in the input view. -/
def rightIn (w : Nat) (s : State) (j : Nat) : Nat := readLE s.mem (s.a0.toNat + s.a1.toNat + 2 * w * j + w) w

/-- The encoding of the left sample of frame `j` of an output view at `base` (R166). -/
def leftOut (w : Nat) (m : List Host.Cell) (base j : Nat) : Nat := readLE m (base + 2 * w * j) w

/-- The encoding of the right sample of frame `j` of an output view at `base`. -/
def rightOut (w : Nat) (m : List Host.Cell) (base j : Nat) : Nat := readLE m (base + 2 * w * j + w) w

/-- One of the two supported PROCESS commands, with its sample width (R162, R170, R171). -/
abbrev processOf (h : Handle) (i : Instr) (w : Nat) : Prop :=
  (i = .processPcm16 h ∧ w = 2) ∨ (i = .processPcmfloat h ∧ w = 4)

/-- Every register and slot at its power-on value (R250), on a platform of N_SLOTS slots. -/
structure powerOnValues (s : State) : Prop where
  cmd : s.cmd = 0
  args : s.a0 = 0 ∧ s.a1 = 0 ∧ s.a2 = 0 ∧ s.a3 = 0 ∧ s.a4 = 0 ∧ s.a5 = 0
  status : s.status = 0
  result : s.result = 0
  fault : s.fault = 0
  caps : (caps s).extractLsb' 0 9 = BitVec.ofNat 9 s.plat.nSlots ∧ (caps s).extractLsb' 9 23 = 0
  slotCount : s.slots.length = s.plat.nSlots
  slots : ∀ sl ∈ s.slots, sl = ⟨.free, 0, false, 0, 0, ⟨0, 0, 0, 0, 0⟩, ⟨0, 0, 0, 0, 0⟩, ⟨0, 0, 0, 0⟩, ⟨0, 0, 0, 0⟩⟩

/-- No NaN or infinity in a history. -/
abbrev histFinite (h : Hist) : Prop :=
  isFinite32 h.x1 = true ∧ isFinite32 h.x2 = true ∧ isFinite32 h.y1 = true ∧ isFinite32 h.y2 = true

/-- The rational value of a finite binary32 encoding, from IEEE 754's definition of the format and not from the
model's arithmetic (R10). -/
def rat32 (b : F32) : ℚ :=
  let e : Nat := b.toNat / 2 ^ 23 % 256
  let f : Nat := b.toNat % 2 ^ 23
  (if b.toNat < 2 ^ 31 then 1 else -1)
    * (if e = 0 then (f : ℚ) * (2 : ℚ) ^ (-149 : ℤ) else ((2 ^ 23 + f : Nat) : ℚ) * (2 : ℚ) ^ ((e : ℤ) - 150))

/-- `r` is a binary32 value nearest to `x`, and an even one where two are equally near (R10). -/
def nearestEven32 (x : ℚ) (r : F32) : Prop :=
  ∀ c : F32, isFinite32 c = true →
    |rat32 r - x| ≤ |rat32 c - x| ∧ (|rat32 r - x| = |rat32 c - x| → rat32 c ≠ rat32 r → r.getLsbD 0 = false)

/-- Where rounding to nearest overflows in binary32: half a unit above the largest finite value, `2^128 - 2^104`. -/
def overflow32 : ℚ := 2 ^ 128 - 2 ^ 103

/-- `r` is the exact `x` rounded once to binary32, to nearest with ties to even (R10): finite below the overflow bound,
and from there on the infinity of `x`'s sign. -/
def roundsTo32 (x : ℚ) (r : F32) : Prop :=
  (|x| < overflow32 → isFinite32 r = true ∧ nearestEven32 x r) ∧
    (overflow32 ≤ x → r = 0x7F800000) ∧ (x ≤ -overflow32 → r = 0xFF800000)

end Sys2Proof.Machine
end

