-- ==== Sys2Proof/Certificates/Slice0/Obligations.lean ====
section
/-! DEFINITION. The statements about the model, from the numbered rules of spec/. -/

open Sys2Proof Sys2Proof.Machine

/-! ### Encoding (30_encoding.md) -/

/-- R71, R72: decoding the word of a well-formed instruction gives the instruction back, whatever its handle and
format. -/
def Obligations.EncodingRoundTrips : Prop := ∀ i : Instr, i.wf = true → decode (encode i) = i

/-- R72, R76: every word decodes to a well-formed instruction, whose word it is. -/
def Obligations.EveryWordIsOneCommand : Prop := ∀ w : Word, (decode w).wf = true ∧ encode (decode w) = w

/-- R75: a word is ILLEGAL exactly when its opcode is reserved or a field that must be 0 is not; PROCESS accepts
every FMT. -/
def Obligations.IllegalWordsExactly : Prop := ∀ w : Word, decode w = .illegal w ↔ isIllegalWord w = true

/-- R81: the spec's encoding examples decode as it says. -/
def Obligations.SpecWordsDecode : Prop :=
  decode 0x00000001 = .configure ∧ decode 0x00000002 = .setparams 0x0000 ∧ decode 0x02000003 = .processPcm16 0x0000
    ∧ decode 0x04010003 = .processPcmfloat 0x0100 ∧ decode 0x03000003 = .processFmt 0x03 0x0000
    ∧ decode 0x00000004 = .reset 0x0000 ∧ decode 0x00000005 = .release 0x0000
    ∧ decode 0x00010002 = .setparams 0x0100 ∧ decode 0x00000006 = .illegal 0x00000006
    ∧ decode 0x00000011 = .illegal 0x00000011 ∧ decode 0x00000101 = .illegal 0x00000101
    ∧ decode 0x02000004 = .illegal 0x02000004

/-! ### The register bus and the step (10_state.md, 30_encoding.md, 70_reset_and_hazards.md) -/

/-- R39, R70: when the next host access writes a word to CMD and no duty is broken, the step stores the word and is
the execution of the command it decodes to, on the values A0 to A5 hold. The duty monitor is the model's own: that the agent whose STATUS is
unread may write CMD again, and that `session` and `released` note the command, are its choices
(notes/assumptions/4.md, notes/assumptions/9.md), not the rules'. -/
def Obligations.StepRunsIssuedCommand : Prop :=
  ∀ (s : State) (agent : Nat) (w : Word) (rest : List HostEvent),
    s.host = .regWrite agent s.plat.regBase 32 w :: rest →
    (s.session = .idle ∨ s.session = .args agent ∨ s.session = .due agent) →
    argsWritten (decode w) s →
    (∀ h, handleOf (decode w) = some h → h ∈ s.released → absentHandle s h) →
    ∃ l : List Handle,
      (∀ h, h ∈ l ↔ h ∈ s.released ∨ (decode w = .release h ∧ ∃ sl, namesLive s h sl)) ∧
      step s = exec (decode w) { s with host := rest, cmd := w, session := .due agent, released := l }

/-- The state `withFetchWord` makes runs the command of that word in its next step, from the state it was given but
for CMD and the duty monitor's fields (notes/assumptions/3.md). -/
def Obligations.FetchWordStepRuns : Prop :=
  ∀ (s : State) (nbits w : Nat) (i : Instr), decodeTableWord nbits w = some i →
    ∃ (v : Word) (t : State), decode v = i ∧
      t = { s with cmd := v, session := .due (cmdAgent s), written := t.written, released := t.released } ∧
      step (s.withFetchWord nbits w) = exec i t

/-- R21, R39: a read of each offset of the window returns that register, CAPS being N_SLOTS and a reserved offset 0;
nothing else of the block changes. The duty monitor is the model's own (notes/assumptions/4.md). -/
def Obligations.RegisterReadsReturnValues : Prop :=
  ∀ (s : State) (agent k : Nat) (rest : List HostEvent), s.Inv → k < 16 →
    s.host = .regRead agent (s.plat.regBase + 4 * k) 32 :: rest →
    step s = .next { s with
      host := rest
      readData := some ([s.cmd, s.a0, s.a1, s.a2, s.a3, s.a4, s.a5, s.status, s.result, s.fault,
        BitVec.ofNat 32 s.plat.nSlots].getD k 0)
      session := if k = 7 ∧ s.session = .due agent then .idle else s.session }

/-- R22, R39: a host write to A0 to A5 stores the value in that register and changes nothing else of the block. The
duty monitor, the model's own (notes/assumptions/4.md), notes the agent and the register. -/
def Obligations.ArgumentWritesStore : Prop :=
  ∀ (s : State) (agent k : Nat) (v : Word) (rest : List HostEvent), k < 6 →
    (s.session = .idle ∨ s.session = .args agent) →
    s.host = .regWrite agent (s.plat.regBase + 4 + 4 * k) 32 v :: rest →
    ∃ t, step s = .next t ∧
      [t.a0, t.a1, t.a2, t.a3, t.a4, t.a5] = [s.a0, s.a1, s.a2, s.a3, s.a4, s.a5].set k v ∧
      t = { s with host := rest, session := .args agent, written := s.written.insert k, a0 := t.a0, a1 := t.a1, a2 := t.a2, a3 := t.a3, a4 := t.a4,
                   a5 := t.a5 }

/-- R39: a write to a read-only or reserved offset is ignored. -/
def Obligations.ReadOnlyWritesIgnored : Prop :=
  ∀ (s : State) (agent k : Nat) (v : Word) (rest : List HostEvent), 7 ≤ k → k < 16 →
    (s.session = .idle ∨ s.session = .args agent ∨ s.session = .due agent) →
    s.host = .regWrite agent (s.plat.regBase + 4 * k) 32 v :: rest →
    step s = .next { s with host := rest }

/-- R39, R256 H8: a register access of another width, or at an offset that is no multiple of 4, is refused, a read
and a write alike. -/
def Obligations.MalformedAccessesRefused : Prop :=
  ∀ (s : State) (agent off width : Nat) (v : Word) (rest : List HostEvent), off < 0x40 →
    (width ≠ 32 ∨ off % 4 ≠ 0) →
    (s.host = .regRead agent (s.plat.regBase + off) width :: rest
      ∨ s.host = .regWrite agent (s.plat.regBase + off) width v :: rest) →
    step s = .refused .busAccess

/-- R256 H1, H2, R233: an argument write before the agent's own STATUS is read, and any register write during
another agent's command, have no step. -/
def Obligations.BrokenDutiesRefused : Prop :=
  ∀ (s : State) (agent k : Nat) (v : Word) (rest : List HostEvent), k < 16 →
    s.host = .regWrite agent (s.plat.regBase + 4 * k) 32 v :: rest →
    (s.session = .due agent → 1 ≤ k → k ≤ 6 → step s = .refused .dutyH1) ∧
    (∀ other, other ≠ agent → s.session = .args other ∨ s.session = .due other → step s = .refused .dutyH2)

/-- R250, R26: power-on reset leaves every register and slot at its reset value, on the platform the block had, so
that CAPS keeps its N_SLOTS. -/
def Obligations.PowerOnResetValues : Prop :=
  ∀ (s : State) (rest : List HostEvent), s.plat.wf = true → s.host = .powerOnReset :: rest →
    ∃ t, step s = .next t ∧ t.plat = s.plat ∧ powerOnValues t

/-- R250, R255: right after reset every register and slot has its reset value, the block is clean and the invariant
holds, on every platform of R7. -/
def Obligations.ResetMeetsInvariant : Prop :=
  (∀ p : Platform, p.wf = true →
      (State.resetOn p).Inv ∧ powerOnValues (State.resetOn p) ∧ (State.resetOn p).CleanBlock)
    ∧ State.reset.Inv

/-- Every step keeps the platform (R7, R26) and the invariant: a platform within R7 and R51, N_SLOTS slots (R27), equal (R29) and finite (R105) coefficients in
both channels, zeroed FREE slots (R199), a canonical data space within ADDR_BITS (R50), a status code of R221,
FAULT[31:3] = 0 (R25), RESULT a 16-bit handle or 0xFFFFFFFF (R24), no all-negative coefficients under REF64 (R102,
R103), and a duty monitor, the model's own, that notes
nothing twice (notes/assumptions/4.md). -/
def Obligations.StepKeepsInvariant : Prop := ∀ s t : State, s.Inv → step s = .next t → t.Inv ∧ t.plat = s.plat

/-- R25: a FAULT bit once set stays set in every step but a power-on reset. -/
def Obligations.FaultBitsSticky : Prop :=
  ∀ s t : State, (∀ rest, s.host ≠ .powerOnReset :: rest) → step s = .next t → s.fault &&& t.fault = s.fault

/-- R50: another bus master's write to the data space changes that byte alone; an address at or above 2^ADDR_BITS
does not exist, and faults. -/
def Obligations.DataWriteChangesOneByte : Prop :=
  ∀ (s : State) (a : Nat) (v : Byte) (rest : List HostEvent), s.Inv → s.host = .dataWrite a v :: rest →
    (a < 2 ^ s.plat.addrBits → ∃ t, step s = .next t ∧ t = { s with host := rest, mem := t.mem } ∧
      ∀ x, readByte t.mem x = if x = a then v else readByte s.mem x) ∧
    (2 ^ s.plat.addrBits ≤ a → step s = .fault .noSuchAddress)

/-- The canonical form is one: two data spaces that read alike everywhere are equal data. -/
def Obligations.EqualReadsEqualMemories : Prop :=
  ∀ m m' : List Host.Cell, memWf m = true → memWf m' = true → (∀ a, readByte m a = readByte m' a) → m = m'

/-! ### CONFIGURE (44_lifecycle.md) -/

/-- R190, R191, R192: with two channels and a positive rate, the least FREE slot becomes a LIVE instance with neutral
coefficients and zero history, RESULT is its handle and STATUS is OK; nothing else changes. -/
def Obligations.ConfigureCreatesInstance : Prop :=
  ∀ (s : State) (i : Nat) (sl : Slot), s.a1 = 2 → 0 < s.a0.toInt → i < 256 → s.slots[i]? = some sl →
    sl.state = .free → (∀ j sj, j < i → s.slots[j]? = some sj → sj.state = .live) →
    exec .configure s = .next { s with
      slots := s.slots.set i ⟨.live, sl.gen, false, s.a0, s.a2, ⟨0x3F800000, 0, 0, 0, 0⟩, ⟨0x3F800000, 0, 0, 0, 0⟩,
        ⟨0, 0, 0, 0⟩, ⟨0, 0, 0, 0⟩⟩
      result := BitVec.ofNat 32 (256 * sl.gen.toNat + i)
      status := 0 }

/-- R193, R24, R224: `ch ≠ 2` or `rate <= 0` ends with INVALID_ARGUMENT whether or not a slot is free; otherwise,
with every slot LIVE, CONFIGURE ends with NO_FREE_SLOT; RESULT is 0xFFFFFFFF, and nothing else changes. With a slot
free it ends with OK whatever `bpf` is, and records it. -/
def Obligations.ConfigureRejects : Prop :=
  ∀ s : State,
    (s.a1 ≠ 2 ∨ s.a0.toInt ≤ 0 → exec .configure s = .next { s with status := 1, result := 0xFFFFFFFF }) ∧
    (s.a1 = 2 → 0 < s.a0.toInt → (∀ sl ∈ s.slots, sl.state = .live) →
      exec .configure s = .next { s with status := 6, result := 0xFFFFFFFF }) ∧
    (s.a1 = 2 → 0 < s.a0.toInt → (∃ sl ∈ s.slots, sl.state = .free) →
      ∃ (t : State) (i : Nat) (x y : Slot), exec .configure s = .next t ∧ t.status = 0 ∧ s.slots[i]? = some x ∧ x.state = .free ∧
        t.slots[i]? = some y ∧ y.bpf = s.a2)

/-- R24, R28, R31: after a CONFIGURE that ends with OK, RESULT[15:0] names a live instance and RESULT[31:16] is 0. -/
def Obligations.ConfiguredHandleIsLive : Prop :=
  ∀ s t : State, s.Inv → exec .configure s = .next t → t.status = 0 →
    t.result.extractLsb' 16 16 = 0 ∧ ∃ sl, namesLive t (t.result.extractLsb' 0 16) sl ∧ sl.numFault = false

/-! ### SETPARAMS (41_coefficient_designer.md) -/

/-- R100, R106: a finite design is installed in both channels of the instance, and nothing else of any slot changes;
the rate is SETPARAMS's own A0 (R101). -/
def Obligations.SetparamsInstallsDesign : Prop :=
  ∀ (s : State) (h : Handle) (sl : Slot) (c : Coef), namesLive s h sl → sl.numFault = false →
    c = design s.plat s.a0.toInt s.a1 s.a2 s.a3 → coefFinite c = true →
    exec (.setparams h) s = .next { s with
      slots := s.slots.set (handleSlot h) { sl with coef0 := c, coef1 := c }
      status := 0 }

/-- R100, R105, R107: a design with a NaN or an infinity is not installed: the instance is marked, and SETPARAMS ends
with NUMERIC_INSTABILITY and FAULT.NUMINST. -/
def Obligations.SetparamsNonFiniteMarksInstance : Prop :=
  ∀ (s : State) (h : Handle) (sl : Slot), namesLive s h sl → sl.numFault = false →
    coefFinite (design s.plat s.a0.toInt s.a1 s.a2 s.a3) = false →
    exec (.setparams h) s = .next { s with
      slots := s.slots.set (handleSlot h) { sl with numFault := true }
      status := 3
      fault := s.fault ||| 2 }

/-- R102, R103: every finite REF64 design has `a1 = -b1`, because `a1r = b1r`. -/
def Obligations.RefDesignFeedbackNegated : Prop :=
  ∀ (rate : Int) (g f q : F32), coefFinite (ref64 21 rate g f q) = true →
    (ref64 21 rate g f q).a1 = (ref64 21 rate g f q).b1 ^^^ 0x80000000

/-- R109, its row `g = 0`: every finite REF64 design at zero gain, of either sign, has `b0 = 1.0` exactly, `a1 = -b1`
and `a2 = -b2`. -/
def Obligations.RefDesignAtZeroGain : Prop :=
  ∀ (rate : Int) (g f q : F32), g = 0 ∨ g = 0x80000000 → coefFinite (ref64 21 rate g f q) = true →
    (ref64 21 rate g f q).b0 = 0x3F800000
      ∧ (ref64 21 rate g f q).a1 = (ref64 21 rate g f q).b1 ^^^ 0x80000000
      ∧ (ref64 21 rate g f q).a2 = (ref64 21 rate g f q).b2 ^^^ 0x80000000

/-! ### Errors every handle command shares (10_state.md, 60_exceptions.md) -/

/-- R28, R200: a command naming an absent handle ends with USE_AFTER_RELEASE and FAULT.UAR, and changes nothing
else: SETPARAMS, the three PROCESS rows, RESET and RELEASE. -/
def Obligations.AbsentHandleEndsUseAfterRelease : Prop :=
  ∀ (s : State) (h : Handle) (fmt : BitVec 8) (i : Instr), absentHandle s h →
    i ∈ [Instr.setparams h, .processPcm16 h, .processPcmfloat h, .processFmt fmt h, .reset h, .release h] →
    exec i s = .next { s with status := 4, fault := s.fault ||| 1 }

/-- R107: while `numFault = 1`, every SETPARAMS, PROCESS and RESET naming the instance ends with NUMERIC_INSTABILITY
and FAULT.NUMINST, and changes nothing else. -/
def Obligations.FaultedInstanceEndsNumericInstability : Prop :=
  ∀ (s : State) (h : Handle) (sl : Slot) (fmt : BitVec 8) (i : Instr), namesLive s h sl → sl.numFault = true →
    i ∈ [Instr.setparams h, .processPcm16 h, .processPcmfloat h, .processFmt fmt h, .reset h] →
    exec i s = .next { s with status := 3, fault := s.fault ||| 2 }

/-! ### RESET, RELEASE and ILLEGAL (44_lifecycle.md) -/

/-- R195, R196: RESET of a live, unfaulted instance writes +0.0 to its eight history values, ends with OK, and writes
nothing else. -/
def Obligations.ResetZeroesBothHistories : Prop :=
  ∀ (s : State) (h : Handle) (sl : Slot), namesLive s h sl → sl.numFault = false →
    exec (.reset h) s = .next { s with
      slots := s.slots.set (handleSlot h) { sl with hist0 := ⟨0, 0, 0, 0⟩, hist1 := ⟨0, 0, 0, 0⟩ }
      status := 0 }

/-- R198, R199: RELEASE of a live instance, faulted or not, frees its slot, advances the generation by one modulo 256
and zeroes every other field. -/
def Obligations.ReleaseFreesSlot : Prop :=
  ∀ (s : State) (h : Handle) (sl : Slot), namesLive s h sl →
    exec (.release h) s = .next { s with
      slots := s.slots.set (handleSlot h) ⟨.free, BitVec.ofNat 8 ((sl.gen.toNat + 1) % 256), false, 0, 0,
        ⟨0, 0, 0, 0, 0⟩, ⟨0, 0, 0, 0, 0⟩, ⟨0, 0, 0, 0⟩, ⟨0, 0, 0, 0⟩⟩
      status := 0 }

/-- R198, R200: a RELEASE that ends with OK moves the slot's generation on from the handle's; every step but a
power-on reset and a RELEASE of that slot keeps it so; and while it is so, every command naming the handle ends with
USE_AFTER_RELEASE and FAULT.UAR, and changes nothing else. -/
def Obligations.ReleasedHandleIsAbsent : Prop :=
  ∀ h : Handle,
    (∀ s t : State, exec (.release h) s = .next t → t.status = 0 → generationMoved t h) ∧
    (∀ s t : State, generationMoved s h → (∀ rest, s.host ≠ .powerOnReset :: rest) →
      (∀ agent width w rest g, s.host = .regWrite agent s.plat.regBase width w :: rest → decode w = .release g →
        handleSlot g ≠ handleSlot h) →
      step s = .next t → generationMoved t h) ∧
    (∀ (s : State) (fmt : BitVec 8) (i : Instr), generationMoved s h →
      i ∈ [Instr.setparams h, .processPcm16 h, .processPcmfloat h, .processFmt fmt h, .reset h, .release h] →
      exec i s = .next { s with status := 4, fault := s.fault ||| 1 })

/-- R190 (its last corner case): a CONFIGURE after the RELEASE of a handle gives a handle that differs from it. -/
def Obligations.ReusedSlotGetsNewHandle : Prop :=
  ∀ (s t u : State) (h : Handle), s.Inv → exec (.release h) s = .next t → t.status = 0 →
    exec .configure t = .next u → u.status = 0 → u.result.extractLsb' 0 16 ≠ h

/-- R201: a word with a reserved opcode, or with a field that must be 0 and is not, runs ILLEGAL, which ends with
ILLEGAL_COMMAND and FAULT.ILLCMD, always, and changes nothing else. -/
def Obligations.IllegalCommandEnds : Prop :=
  ∀ (s : State) (w : Word), exec (.illegal w) s = .next { s with status := 5, fault := s.fault ||| 4 } ∧
    (isIllegalWord w = true → exec (decode w) s = .next { s with status := 5, fault := s.fault ||| 4 })

/-! ### PROCESS (43_stereo_adapter.md) -/

/-- R172: PROCESS.FMT<n> on a live, unfaulted instance whose views and range pass ends with UNSUPPORTED_ENCODING, and
changes nothing else, a zero-length range included. -/
def Obligations.UnsupportedFormatEnds : Prop :=
  ∀ (s : State) (h : Handle) (sl : Slot) (fmt : BitVec 8), fmt ≠ 0x02 → fmt ≠ 0x04 → namesLive s h sl →
    sl.numFault = false → viewsAddressable s → rangeWellFormed s →
    exec (.processFmt fmt h) s = .next { s with status := 2 }

/-- R161, R224: on a live, unfaulted instance, a PROCESS of any row with a null or unaddressable view, or else with a
malformed range, ends with INVALID_ARGUMENT; these passing, another format than the two ends with
UNSUPPORTED_ENCODING, and a PCM16 or PCMFLOAT one with a partial sample, an odd count or too small an output ends
with INVALID_ARGUMENT. Nothing else changes. -/
def Obligations.ProcessRejectsBadArguments : Prop :=
  ∀ (s : State) (h : Handle) (sl : Slot) (fmt : BitVec 8), namesLive s h sl → sl.numFault = false →
    (¬ viewsAddressable s ∨ ¬ rangeWellFormed s →
      ∀ i ∈ [Instr.processPcm16 h, .processPcmfloat h, .processFmt fmt h],
        exec i s = .next { s with status := 1 }) ∧
    (fmt ≠ 0x02 → fmt ≠ 0x04 → viewsAddressable s → rangeWellFormed s →
      exec (.processFmt fmt h) s = .next { s with status := 2 }) ∧
    (∀ i w, processOf h i w → viewsAddressable s → rangeWellFormed s → ¬ lengthFits w s →
      exec i s = .next { s with status := 1 })

/-- R160, R163 to R166: an accepted PROCESS.PCM16 filters the left samples with channel 0's section and the right ones
with channel 1's, all read before any write, stores the outputs interleaved from the output view's start on, writes
both new histories and ends with OK. `dL` and `dR` number the free values (notes/assumptions/5.md). -/
def Obligations.Pcm16FiltersBothChannels : Prop :=
  ∀ (s : State) (h : Handle) (sl : Slot), s.Inv → namesLive s h sl → sl.numFault = false → processAccepted 2 s →
    ∃ t dL dR, exec (.processPcm16 h) s = .next t ∧
      let l := filterI16 dL sl.coef0 sl.hist0
        ((List.range (frameCount 2 s)).map fun j => (BitVec.ofNat 16 (leftIn 2 s j)).toInt)
      let r := filterI16 dR sl.coef1 sl.hist1
        ((List.range (frameCount 2 s)).map fun j => (BitVec.ofNat 16 (rightIn 2 s j)).toInt)
      (∀ j, j < frameCount 2 s →
        leftOut 2 t.mem s.a4.toNat j = (BitVec.ofInt 16 (l.1.getD j 0)).toNat ∧
        rightOut 2 t.mem s.a4.toNat j = (BitVec.ofInt 16 (r.1.getD j 0)).toNat) ∧
      t = { s with
        mem := t.mem
        draws := t.draws
        slots := s.slots.set (handleSlot h) { sl with hist0 := l.2, hist1 := r.2 }
        status := 0 }

/-- R160, R163 to R166: the same for PROCESS.PCMFLOAT, whose outputs are the filter's, neither clamped nor scaled. -/
def Obligations.PcmfloatFiltersBothChannels : Prop :=
  ∀ (s : State) (h : Handle) (sl : Slot), s.Inv → namesLive s h sl → sl.numFault = false → processAccepted 4 s →
    ∃ t dL dR, exec (.processPcmfloat h) s = .next t ∧
      let l := filterF32 dL sl.coef0 sl.hist0
        ((List.range (frameCount 4 s)).map fun j => BitVec.ofNat 32 (leftIn 4 s j))
      let r := filterF32 dR sl.coef1 sl.hist1
        ((List.range (frameCount 4 s)).map fun j => BitVec.ofNat 32 (rightIn 4 s j))
      (∀ j, j < frameCount 4 s →
        leftOut 4 t.mem s.a4.toNat j = (l.1.getD j 0).toNat ∧ rightOut 4 t.mem s.a4.toNat j = (r.1.getD j 0).toNat) ∧
      t = { s with
        mem := t.mem
        draws := t.draws
        slots := s.slots.set (handleSlot h) { sl with hist0 := l.2, hist1 := r.2 }
        status := 0 }

/-- R50, R56: PROCESS changes no byte outside `[outBase, outBase + len)`, whichever way it ends. -/
def Obligations.ProcessWritesOnlyItsOutput : Prop :=
  ∀ (s t : State) (h : Handle) (i : Instr) (w x : Nat), s.Inv → processOf h i w → exec i s = .next t →
    ((x : Int) < s.a4.toNat ∨ (s.a4.toNat : Int) + processLen s ≤ x) → readByte t.mem x = readByte s.mem x

/-- R168, R259: a PROCESS of any row that ends with a status other than OK has changed STATUS and FAULT alone. -/
def Obligations.ProcessAllOrNothing : Prop :=
  ∀ (s t : State) (h : Handle) (fmt : BitVec 8) (i : Instr),
    i ∈ [Instr.processPcm16 h, .processPcmfloat h, .processFmt fmt h] → exec i s = .next t → t.status ≠ 0 →
    t = { s with status := t.status, fault := t.fault }

/-- R167: a zero-length PROCESS whose views pass ends with OK, and changes nothing else: zero is an even count, and
`outCap >= 0`, which the views' check asks for, is enough. -/
def Obligations.ZeroLengthProcessDoesNothing : Prop :=
  ∀ (s : State) (h : Handle) (sl : Slot) (i : Instr) (w : Nat), processOf h i w → namesLive s h sl →
    sl.numFault = false → viewsAddressable s → rangeWellFormed s → s.a1 = s.a2 →
    exec i s = .next { s with status := 0 }

/-- R173: two runs that differ in the data space only, and agree on the left samples, give the same left outputs and
the same left history; and likewise for the right channel. That NaN payloads and the int16 of a NaN agree too is the
model's choice of draw numbers (notes/assumptions/5.md): R10, R133 and R139 leave them a draw. -/
def Obligations.ChannelsAreIndependent : Prop :=
  ∀ (s t t' : State) (m : List Host.Cell) (h : Handle) (sl : Slot) (i : Instr) (w : Nat),
    s.Inv → memWf m = true → processOf h i w → namesLive s h sl → sl.numFault = false → processAccepted w s →
    exec i s = .next t → exec i { s with mem := m } = .next t' →
    ((∀ j, j < frameCount w s → leftIn w s j = leftIn w { s with mem := m } j) →
      (∀ j, j < frameCount w s → leftOut w t.mem s.a4.toNat j = leftOut w t'.mem s.a4.toNat j) ∧
      (t.slots[handleSlot h]?).map Slot.hist0 = (t'.slots[handleSlot h]?).map Slot.hist0) ∧
    ((∀ j, j < frameCount w s → rightIn w s j = rightIn w { s with mem := m } j) →
      (∀ j, j < frameCount w s → rightOut w t.mem s.a4.toNat j = rightOut w t'.mem s.a4.toNat j) ∧
      (t.slots[handleSlot h]?).map Slot.hist1 = (t'.slots[handleSlot h]?).map Slot.hist1)

/-- R174: on an instance with equal histories in both channels, equal left and right samples give equal outputs and
equal new histories. Stated for PCMFLOAT, with the premise that no left output is a NaN, whose payload is a draw
(notes/assumptions/5.md). -/
def Obligations.EqualChannelsStayEqual : Prop :=
  ∀ (s t : State) (h : Handle) (sl : Slot), s.Inv → namesLive s h sl → sl.numFault = false → processAccepted 4 s →
    sl.hist0 = sl.hist1 → (∀ j, j < frameCount 4 s → leftIn 4 s j = rightIn 4 s j) →
    exec (.processPcmfloat h) s = .next t →
    (∀ j, j < frameCount 4 s → isNaN32 (BitVec.ofNat 32 (leftOut 4 t.mem s.a4.toNat j)) = false) →
    (∀ j, j < frameCount 4 s → leftOut 4 t.mem s.a4.toNat j = rightOut 4 t.mem s.a4.toNat j) ∧
    ∃ y, t.slots[handleSlot h]? = some y ∧ y.hist0 = y.hist1

/-- R61: a PROCESS gives the same outputs and histories to whichever accepted output view it writes, whether or not
that view overlaps the input. That NaN payloads and the int16 of a NaN agree too is the model's choice of draw numbers
(notes/assumptions/5.md): R10, R133 and R139 leave them a draw. -/
def Obligations.OverlapChangesNothing : Prop :=
  ∀ (s t t' : State) (b c : Word) (h : Handle) (sl : Slot) (i : Instr) (w : Nat),
    s.Inv → processOf h i w → namesLive s h sl → sl.numFault = false → processAccepted w s →
    processAccepted w { s with a4 := b, a5 := c } →
    exec i s = .next t → exec i { s with a4 := b, a5 := c } = .next t' →
    (∀ j, j < frameCount w s →
      leftOut w t.mem s.a4.toNat j = leftOut w t'.mem b.toNat j ∧
      rightOut w t.mem s.a4.toNat j = rightOut w t'.mem b.toNat j) ∧ t.slots = t'.slots

/-! ### The whole machine (10_state.md, 60_exceptions.md) -/

/-- R12, R23, R221: every command, from every state, ends in a next state with a code from 0 to 6 in STATUS and 0
above it; no command faults or is refused. -/
def Obligations.EveryCommandEndsWithStatus : Prop :=
  ∀ (i : Instr) (s : State), ∃ t, exec i s = .next t ∧ t.status.toNat ≤ 6

/-- R223, R25: a command sets the FAULT bit of its status and no other, and clears none. -/
def Obligations.FaultBitFollowsStatus : Prop :=
  ∀ (i : Instr) (s t : State), exec i s = .next t →
    t.fault = s.fault ||| (if t.status = 4 then 1 else if t.status = 3 then 2 else if t.status = 5 then 4 else 0)

/-- R22, R24, R38, R50: no command writes CMD, A0 to A5 or the platform; only CONFIGURE writes RESULT; only PROCESS
writes the data space. The host's accesses, the last read value and the duty monitor's three fields (the model's own)
stay too. -/
def Obligations.CommandsWriteOnlyTheirState : Prop :=
  ∀ (i : Instr) (s t : State), i.wf = true → exec i s = .next t →
    t.plat = s.plat ∧ t.cmd = s.cmd
      ∧ [t.a0, t.a1, t.a2, t.a3, t.a4, t.a5] = [s.a0, s.a1, s.a2, s.a3, s.a4, s.a5]
      ∧ t.host = s.host ∧ t.readData = s.readData ∧ t.session = s.session
      ∧ t.written = s.written ∧ t.released = s.released
      ∧ (i ≠ .configure → t.result = s.result)
      ∧ ((∀ h w, ¬ processOf h i w) → t.mem = s.mem ∧ t.draws = s.draws)

/-- R233: a command changes no slot but the one its handle names; CONFIGURE changes no LIVE slot, and no FREE slot
above another. The number of slots never changes. -/
def Obligations.OtherSlotsUnchanged : Prop :=
  ∀ (i : Instr) (s t : State), exec i s = .next t →
    t.slots.length = s.slots.length ∧
    ∀ j sl, s.slots[j]? = some sl →
      (match i with
        | .configure => sl.state = .live ∨ ∃ k sk, k < j ∧ s.slots[k]? = some sk ∧ sk.state = .free
        | .setparams h => j ≠ handleSlot h
        | .processPcm16 h => j ≠ handleSlot h
        | .processPcmfloat h => j ≠ handleSlot h
        | .processFmt _ h => j ≠ handleSlot h
        | .reset h => j ≠ handleSlot h
        | .release h => j ≠ handleSlot h
        | .illegal _ => True) →
      t.slots[j]? = some sl

/-- R38: within a slot, SETPARAMS writes coefficients and `numFault` only, PROCESS and RESET histories only, and
CONFIGURE leaves the generation. -/
def Obligations.SlotFieldsWrittenByTheirCommands : Prop :=
  ∀ (i : Instr) (s t : State) (j : Nat) (x y : Slot), exec i s = .next t → s.slots[j]? = some x →
    t.slots[j]? = some y →
      match i with
      | .configure => y.gen = x.gen
      | .setparams _ => y = { x with coef0 := y.coef0, coef1 := y.coef1, numFault := y.numFault }
      | .processPcm16 _ => y = { x with hist0 := y.hist0, hist1 := y.hist1 }
      | .processPcmfloat _ => y = { x with hist0 := y.hist0, hist1 := y.hist1 }
      | .processFmt _ _ => y = { x with hist0 := y.hist0, hist1 := y.hist1 }
      | .reset _ => y = { x with hist0 := y.hist0, hist1 := y.hist1 }
      | .release _ => y = x ∨ y.gen = x.gen + 1
      | .illegal _ => y = x

/-! ### The Biquad State Machine (42_biquad.md) -/

/-- R130, R175: filtering a run in two parts, the second from the history the first leaves, is filtering it whole, in
both domains. -/
def Obligations.FilteringSplitsAtAnyPoint : Prop :=
  (∀ (d : Nat) (c : Coef) (h : Hist) (xs ys : List F32), ∃ d',
    filterF32 d c h (xs ++ ys)
      = ((filterF32 d c h xs).1 ++ (filterF32 d' c (filterF32 d c h xs).2 ys).1,
          (filterF32 d' c (filterF32 d c h xs).2 ys).2)) ∧
  (∀ (d : Nat) (c : Coef) (h : Hist) (xs ys : List Int), ∃ d',
    filterI16 d c h (xs ++ ys)
      = ((filterI16 d c h xs).1 ++ (filterI16 d' c (filterI16 d c h xs).2 ys).1,
          (filterI16 d' c (filterI16 d c h xs).2 ys).2))

/-- R142: FILTER_F32 and FILTER_I16 are functions of coefficients, history and run where no `y` of the recurrence is
a NaN: the draws do not matter. FILTER_I16's `y` are those of the recurrence on its converted inputs. -/
def Obligations.FilterWithoutNanIsDeterministic : Prop :=
  ∀ (d d' : Nat) (c : Coef) (h : Hist),
    (∀ run : List F32, (∀ y ∈ (filterF32 d c h run).1, isNaN32 y = false) →
      filterF32 d' c h run = filterF32 d c h run) ∧
    (∀ run : List Int, (∀ y ∈ (filterF32 d c h (run.map (normalise d))).1, isNaN32 y = false) →
      filterI16 d' c h run = filterI16 d c h run)

/-- R133: a NaN anywhere in the history makes every later output a NaN, and a NaN or infinity there makes every later
output one of the two, whatever the input, coefficients and draws; and so does a NaN or infinity as an input, for its
own output and every later one. -/
def Obligations.NanHistoryPersists : Prop :=
  ∀ (d : Nat) (c : Coef) (h : Hist) (run : List F32),
    (isNaN32 h.x1 = true ∨ isNaN32 h.x2 = true ∨ isNaN32 h.y1 = true ∨ isNaN32 h.y2 = true →
      ∀ y ∈ (filterF32 d c h run).1, isNaN32 y = true) ∧
    (¬ histFinite h → ∀ y ∈ (filterF32 d c h run).1, isFinite32 y = false) ∧
    (∀ x, isNaN32 x = true → ∀ y ∈ (filterF32 d c h (x :: run)).1, isNaN32 y = true) ∧
    (∀ x, isFinite32 x = false → ∀ y ∈ (filterF32 d c h (x :: run)).1, isFinite32 y = false)

/-- R137: the integer input conversion: `i2f(k)` is exact for every int16 `k`, the quotient by 32767 is rounded to
nearest even, and 0 gives +0.0. -/
def Obligations.IntegerInputIsNearestQuotient : Prop :=
  ∀ (d : Nat) (k : Int), -32768 ≤ k → k ≤ 32767 →
    rat32 (i2f k) = k ∧ nearestEven32 (k / 32767) (normalise d k) ∧ (k = 0 → normalise d k = 0)

/-- R138: with `v = fmul(y, 32767.0)`, a NaN `v` gives the draw; a `v` beyond the int16 range, an infinity too, gives
the nearer bound, never a wrapped value; any other `v` is truncated toward zero. The output is in the range always. -/
def Obligations.IntegerOutputSaturates : Prop :=
  ∀ (d : Nat) (y v : F32), v = fmul (d + 10) y 0x46FFFE00 →
    (-32768 ≤ sat16 d y ∧ sat16 d y ≤ 32767) ∧
    (isNaN32 v = true → sat16 d y = (Config.nanInt16 (d + 11)).toInt) ∧
    (v = 0xFF800000 → sat16 d y = -32768) ∧
    (v = 0x7F800000 → sat16 d y = 32767) ∧
    (isFinite32 v = true →
      sat16 d y =
        if rat32 v < -32768 then -32768
        else if 32767 < rat32 v then 32767
        else if 0 ≤ rat32 v then ⌊rat32 v⌋ else ⌈rat32 v⌉)

/-- R141: with neutral coefficients and a history without NaN or infinity, FILTER_F32 returns every finite input but
`-0.0` unchanged, bit for bit. -/
def Obligations.NeutralFloatFilterIsIdentity : Prop :=
  ∀ (d : Nat) (h : Hist) (run : List F32), histFinite h →
    (∀ x ∈ run, isFinite32 x = true ∧ x ≠ 0x80000000) → (filterF32 d Coef.neutral h run).1 = run

/-- R10: `fadd`, `fmul` and `fdiv` of finite operands give the exact result rounded once: below the binary32 overflow
bound a finite value, the nearest one and the even one where two are equally near, subnormals kept; from the bound on
the infinity of the exact result's sign. -/
def Obligations.ArithmeticRoundsToNearestEven : Prop :=
  ∀ (d : Nat) (a b : F32), isFinite32 a = true → isFinite32 b = true →
    roundsTo32 (rat32 a + rat32 b) (fadd d a b) ∧
    roundsTo32 (rat32 a * rat32 b) (fmul d a b) ∧
    (rat32 b ≠ 0 → roundsTo32 (rat32 a / rat32 b) (fdiv d a b))

/-! ### The duties of a command's issue (70_reset_and_hazards.md) -/

/-- R256 H1, H6, R73: a CMD write whose command uses an argument register nobody has written has no step; nor has one
that names a released handle which, after a generation wrap (R32), names a live instance again; and every other one by
an agent whose turn it is answers a next state. What counts as written and as released is noted by the duty monitor,
the model's own (notes/assumptions/4.md, notes/assumptions/9.md). -/
def Obligations.UnpreparedCommandsRefused : Prop :=
  ∀ (s : State) (agent : Nat) (w : Word) (rest : List HostEvent),
    s.host = .regWrite agent s.plat.regBase 32 w :: rest →
    (s.session = .idle ∨ s.session = .args agent ∨ s.session = .due agent) →
    (¬ argsWritten (decode w) s → step s = .refused .dutyH1) ∧
    (argsWritten (decode w) s → (∃ h sl, handleOf (decode w) = some h ∧ h ∈ s.released ∧ namesLive s h sl) →
      step s = .refused .dutyH6) ∧
    (argsWritten (decode w) s → (∀ h sl, handleOf (decode w) = some h → h ∈ s.released → ¬ namesLive s h sl) →
      ∃ t, step s = .next t)

/-- R200 over whole runs, on the record the duty monitor keeps (notes/assumptions/9.md): a RELEASE that ends with OK
records its handle; every step but a power-on reset keeps the record; and a command naming a recorded handle, if it
has a step at all, ends with USE_AFTER_RELEASE and FAULT.UAR and changes nothing else of the block. -/
def Obligations.RecordedHandleNeverActsAgain : Prop :=
  ∀ s t : State, step s = .next t →
    (∀ h, h ∈ s.released → (∀ rest, s.host ≠ .powerOnReset :: rest) → h ∈ t.released) ∧
    (∀ agent w rest h, s.host = .regWrite agent s.plat.regBase 32 w :: rest →
      (decode w = .release h → t.status = 0 → h ∈ t.released) ∧
      (handleOf (decode w) = some h → h ∈ s.released →
        t = { s with
          host := rest, cmd := w, session := .due agent, status := 4, fault := s.fault ||| 1 }))

/-! ### A silent channel (43_stereo_adapter.md) -/

/-- R173: a right channel of all zeros, from zero history, gives zeros and leaves the right history at
`(+0, +0, +0, +0)`, whatever the left carries; and vice versa. It holds under REF64, and of any instance whose five
coefficients are not all negative, as those of CONFIGURE; only an OPEN DESIGN can give others, and for them the
recurrence (R131, R133) decides (notes/assumptions/15.md). -/
def Obligations.SilentChannelStaysSilent : Prop :=
  ∀ (s t : State) (h : Handle) (sl : Slot) (i : Instr) (w : Nat), s.Inv →
    s.plat.designer = .reference ∨ someSignClear sl.coef0 → processOf h i w → namesLive s h sl →
    sl.numFault = false → processAccepted w s → exec i s = .next t →
    (sl.hist1 = ⟨0, 0, 0, 0⟩ → (∀ j, j < frameCount w s → rightIn w s j = 0) →
      (t.slots[handleSlot h]?).map Slot.hist1 = some ⟨0, 0, 0, 0⟩ ∧
        ∀ j, j < frameCount w s → rightOut w t.mem s.a4.toNat j = 0) ∧
    (sl.hist0 = ⟨0, 0, 0, 0⟩ → (∀ j, j < frameCount w s → leftIn w s j = 0) →
      (t.slots[handleSlot h]?).map Slot.hist0 = some ⟨0, 0, 0, 0⟩ ∧
        ∀ j, j < frameCount w s → leftOut w t.mem s.a4.toNat j = 0)

/-- R131, R133: with finite coefficients that are not all negative, both filters map zeros from zero history to zeros
and zero history, bit for bit; with all five negative, FILTER_F32 gives `-0.0` for the first
(notes/assumptions/15.md). -/
def Obligations.FiltersMapZerosToZeros : Prop :=
  ∀ (d n : Nat) (c : Coef), coefFinite c = true →
    (someSignClear c →
      filterF32 d c ⟨0, 0, 0, 0⟩ (List.replicate n 0) = (List.replicate n 0, ⟨0, 0, 0, 0⟩) ∧
      filterI16 d c ⟨0, 0, 0, 0⟩ (List.replicate n 0) = (List.replicate n 0, ⟨0, 0, 0, 0⟩)) ∧
    (¬ someSignClear c → filterF32 d c ⟨0, 0, 0, 0⟩ [0] = ([0x80000000], ⟨0, 0, 0x80000000, 0⟩))
end

