-- ==== Sys2Proof/Laws/Float.lean ====
section
/-! SUPPORT. The small facts about binary32 (00_scope.md rule R10): which encodings are NaNs, whatever the draw, and
that a narrowed number is none. -/

namespace Sys2Proof.Machine

theorem fmtInf_binary32 : fmtInf binary32 = 0x7F800000 := rfl

/-- The value of an encoding is NaN exactly for the encodings above that of ∞. -/
theorem val32_eq_nan (b : F32) : val32 b = .nan ↔ isNaN32 b = true := by
  have hlt : b.toNat % 2 ^ 31 < 2 ^ 31 := Nat.mod_lt _ (by norm_num)
  unfold val32 isNaN32 unpack
  rw [fmtInf_binary32]
  simp only [binary32]
  generalize b.toNat % 2 ^ 31 = m at *
  norm_num
  norm_num at hlt
  split
  · split
    · simp; omega
    · simp; omega
  · split
    · simp; omega
    · simp; omega

/-- A word made of a sign, nine ones and 22 payload bits is above ∞. -/
theorem nanWord_toNat (x : BitVec 1) (y : BitVec 22) :
    (x ++ ((0x1FF : BitVec 9) ++ y)).toNat = x.toNat * 2 ^ 31 + (511 * 2 ^ 22 + y.toNat) := by
  have hy := y.isLt
  have hc : (511 * 2 ^ 22 + y.toNat) < 2 ^ (9 + 22) := by
    norm_num at hy ⊢
    omega
  rw [BitVec.toNat_append, BitVec.toNat_append, show (0x1FF : BitVec 9).toNat = 511 from rfl,
    ← Nat.shiftLeft_add_eq_or_of_lt hy, Nat.shiftLeft_eq 511, ← Nat.shiftLeft_add_eq_or_of_lt hc, Nat.shiftLeft_eq]

/-- A drawn NaN is a NaN, whatever is drawn (R10). -/
theorem isNaN32_quietNaN (d : Nat) : isNaN32 (quietNaN d) = true := by
  unfold isNaN32 quietNaN
  have hy := ((Config.nanPayload d).extractLsb' 0 22).isLt
  rw [fmtInf_binary32, nanWord_toNat, Nat.mul_add_mod']
  generalize ((Config.nanPayload d).extractLsb' 0 22).toNat = y at *
  rw [decide_eq_true_eq, Nat.mod_eq_of_lt (by norm_num at hy ⊢; omega)]
  norm_num
  omega

@[simp] theorem val32_quietNaN (d : Nat) : val32 (quietNaN d) = .nan :=
  (val32_eq_nan _).2 (isNaN32_quietNaN d)

theorem roundMag_le_inf (F : Fmt) (n d : Nat) (e : Int) : roundMag F n d e ≤ fmtInf F := by
  unfold roundMag
  split
  · exact Nat.zero_le _
  · exact min_le_left _ _

theorem toNat_pack32 (neg : Bool) (mag : Nat) (h : mag < 2 ^ 31) : (pack32 neg mag).toNat % 2 ^ 31 = mag := by
  unfold pack32
  rw [BitVec.toNat_ofNat]
  cases neg <;> simp <;> omega

/-- Narrowing gives a NaN for a NaN only. -/
theorem isNaN32_round32 (d : Nat) (x : FpVal) : isNaN32 (round32 d x) = true ↔ x = .nan := by
  cases x with
  | nan => simp [round32, isNaN32_quietNaN]
  | inf n =>
    have h := toNat_pack32 n (fmtInf binary32) (by rw [fmtInf_binary32]; norm_num)
    unfold round32 isNaN32
    rw [h]
    simp
  | rat n a c e =>
    have hle := roundMag_le_inf binary32 a c e
    have hb : roundMag binary32 a c e < 2 ^ 31 := by rw [fmtInf_binary32] at hle; omega
    have h := toNat_pack32 n _ hb
    unfold round32 isNaN32
    rw [h]
    simp [hle]

end Sys2Proof.Machine
end

