-- ==== Sys2Proof/Laws/Memory.lean ====
section
/-! SUPPORT. The laws of the data space: a read after a write, the canonical form every operation keeps, and what
the little-endian and sample operations read and write (20_memory.md rules R50 to R56). -/

namespace Sys2Proof.Machine

/-- Every cell lies above `a`. -/
def cellsAbove (a : Nat) (m : List Host.Cell) : Prop := ∀ c ∈ m, a < c.1

theorem memWf_cons (a : Nat) (b : Byte) (rest : List Host.Cell) :
    memWf ((a, b) :: rest) = true ↔ b ≠ unlistedByte ∧ cellsAbove a rest ∧ memWf rest = true := by
  simp [memWf, cellsAbove, and_assoc]

/-- A byte below every listed cell is an unlisted one. -/
theorem readByte_below (m : List Host.Cell) (a x : Nat) (h : cellsAbove a m) (hx : x ≤ a) :
    readByte m x = unlistedByte := by
  induction m with
  | nil => rfl
  | cons c rest ih =>
    obtain ⟨k, v⟩ := c
    have hk : a < k := h (k, v) (by simp)
    have hne : k ≠ x := by omega
    simp only [readByte, if_neg hne]
    exact ih (fun c hc => h c (by simp [hc]))

/-- Reading past a cell put in front. -/
theorem readByte_consByte (x : Nat) (v : Byte) (rest : List Host.Cell) (h : cellsAbove x rest) (y : Nat) :
    readByte (consByte x v rest) y = if x = y then v else readByte rest y := by
  unfold consByte
  split
  · next hv =>
    split
    · next hxy => rw [readByte_below rest x y h (by omega), hv]
    · rfl
  · rfl

theorem cellsAbove_mono {a b : Nat} {m : List Host.Cell} (hab : a ≤ b) (h : cellsAbove b m) : cellsAbove a m :=
  fun c hc => lt_of_le_of_lt hab (h c hc)

/-- A read after a write: the byte written at its address, the old byte elsewhere. -/
theorem readByte_writeByte (m : List Host.Cell) (hm : memWf m = true) (x : Nat) (v : Byte) (y : Nat) :
    readByte (writeByte m x v) y = if x = y then v else readByte m y := by
  induction m with
  | nil =>
    simp only [writeByte]
    rw [readByte_consByte x v [] (by simp [cellsAbove])]
  | cons c rest ih =>
    obtain ⟨a, b⟩ := c
    obtain ⟨-, ha, hr⟩ := (memWf_cons a b rest).1 hm
    simp only [writeByte]
    split
    · next hlt =>
      rw [readByte_consByte]
      intro c hc
      rcases List.mem_cons.1 hc with rfl | hc
      · exact hlt
      · exact lt_trans hlt (ha c hc)
    · split
      · next hxa =>
        subst hxa
        rw [readByte_consByte x v rest ha]
        split
        · rfl
        · next hne => simp [readByte, hne]
      · next h1 h2 =>
        simp only [readByte, ih hr]
        by_cases hay : a = y
        · subst hay
          simp [h2]
        · simp [hay]

theorem cellsAbove_consByte {a x : Nat} {v : Byte} {rest : List Host.Cell} (hx : a < x) (h : cellsAbove a rest) :
    cellsAbove a (consByte x v rest) := by
  unfold consByte
  split
  · exact h
  · intro c hc
    rcases List.mem_cons.1 hc with rfl | hc
    · exact hx
    · exact h c hc

theorem cellsAbove_writeByte {a : Nat} {m : List Host.Cell} (x : Nat) (v : Byte) (hx : a < x)
    (h : cellsAbove a m) : cellsAbove a (writeByte m x v) := by
  induction m with
  | nil => exact cellsAbove_consByte hx h
  | cons c rest ih =>
    obtain ⟨k, b⟩ := c
    have hrest : cellsAbove a rest := fun c hc => h c (by simp [hc])
    simp only [writeByte]
    split
    · exact cellsAbove_consByte hx h
    · split
      · exact cellsAbove_consByte hx hrest
      · intro c hc
        rcases List.mem_cons.1 hc with rfl | hc
        · exact h _ (by simp)
        · exact ih hrest c hc

theorem memWf_consByte (x : Nat) (v : Byte) (rest : List Host.Cell) (h : cellsAbove x rest)
    (hr : memWf rest = true) : memWf (consByte x v rest) = true := by
  unfold consByte
  split
  · exact hr
  · next hv => exact (memWf_cons x v rest).2 ⟨hv, h, hr⟩

/-- Writing a byte keeps the canonical form. -/
theorem memWf_writeByte (m : List Host.Cell) (hm : memWf m = true) (x : Nat) (v : Byte) :
    memWf (writeByte m x v) = true := by
  induction m with
  | nil => exact memWf_consByte x v [] (by simp [cellsAbove]) rfl
  | cons c rest ih =>
    obtain ⟨a, b⟩ := c
    obtain ⟨hb, ha, hr⟩ := (memWf_cons a b rest).1 hm
    simp only [writeByte]
    split
    · next hlt =>
      refine memWf_consByte x v _ ?_ hm
      intro c hc
      rcases List.mem_cons.1 hc with rfl | hc
      · exact hlt
      · exact lt_trans hlt (ha c hc)
    · split
      · next hxa => exact memWf_consByte x v rest (hxa ▸ ha) hr
      · next h1 h2 =>
        exact (memWf_cons a b _).2 ⟨hb, cellsAbove_writeByte x v (by omega) ha, ih hr⟩

/-- Every cell lies below `n`. -/
def cellsBelow (n : Nat) (m : List Host.Cell) : Prop := ∀ c ∈ m, c.1 < n

theorem cellsBelow_consByte {n x : Nat} {v : Byte} {rest : List Host.Cell} (hx : x < n) (h : cellsBelow n rest) :
    cellsBelow n (consByte x v rest) := by
  unfold consByte
  split
  · exact h
  · intro c hc
    rcases List.mem_cons.1 hc with rfl | hc
    · exact hx
    · exact h c hc

/-- Writing a byte inside a bound lists no cell outside it. -/
theorem cellsBelow_writeByte {n : Nat} {m : List Host.Cell} (x : Nat) (v : Byte) (hx : x < n)
    (h : cellsBelow n m) : cellsBelow n (writeByte m x v) := by
  induction m with
  | nil => exact cellsBelow_consByte hx h
  | cons c rest ih =>
    obtain ⟨k, b⟩ := c
    have hrest : cellsBelow n rest := fun c hc => h c (by simp [hc])
    simp only [writeByte]
    split
    · exact cellsBelow_consByte hx h
    · split
      · exact cellsBelow_consByte hx hrest
      · intro c hc
        rcases List.mem_cons.1 hc with rfl | hc
        · exact h _ (by simp)
        · exact ih hrest c hc

/-! ### Little-endian accesses (R52) -/

theorem memWf_writeLE (m : List Host.Cell) (hm : memWf m = true) (a n v : Nat) :
    memWf (writeLE m a n v) = true := by
  induction n generalizing m a v with
  | zero => exact hm
  | succ n ih => exact ih _ (memWf_writeByte m hm a _) _ _

theorem cellsBelow_writeLE {k : Nat} {m : List Host.Cell} (a n v : Nat) (ha : a + n ≤ k) (h : cellsBelow k m) :
    cellsBelow k (writeLE m a n v) := by
  induction n generalizing m a v with
  | zero => exact h
  | succ n ih => exact ih (a + 1) _ (by omega) (cellsBelow_writeByte a _ (by omega) h)

/-- `MemWrite(addr, n, v)` leaves every byte outside `addr .. addr+n-1` alone. -/
theorem readByte_writeLE_of_outside (m : List Host.Cell) (hm : memWf m = true) (a n v x : Nat)
    (hx : x < a ∨ a + n ≤ x) : readByte (writeLE m a n v) x = readByte m x := by
  induction n generalizing m a v with
  | zero => rfl
  | succ n ih =>
    simp only [writeLE]
    rw [ih _ (memWf_writeByte m hm a _) (a + 1) (v / 256) (by omega), readByte_writeByte m hm]
    exact if_neg (by omega)

/-- `readLE` depends only on the bytes it reads. -/
theorem readLE_congr (m m' : List Host.Cell) (a n : Nat)
    (h : ∀ x, a ≤ x → x < a + n → readByte m x = readByte m' x) : readLE m a n = readLE m' a n := by
  induction n generalizing a with
  | zero => rfl
  | succ n ih =>
    simp only [readLE]
    rw [h a (by omega) (by omega), ih (a + 1) (fun x h1 h2 => h x (by omega) (by omega))]

/-- What `MemWrite` stored, `MemRead` reads. -/
theorem readLE_writeLE (m : List Host.Cell) (hm : memWf m = true) (a n v : Nat) :
    readLE (writeLE m a n v) a n = v % 256 ^ n := by
  induction n generalizing m a v with
  | zero => simp [readLE, Nat.mod_one]
  | succ n ih =>
    have hw := memWf_writeByte m hm a (BitVec.ofNat 8 v)
    simp only [readLE, writeLE]
    rw [ih _ hw, readByte_writeLE_of_outside _ hw _ _ _ _ (by omega), readByte_writeByte m hm, if_pos rfl,
      BitVec.toNat_ofNat, show 2 ^ 8 = 256 from rfl, pow_succ', Nat.mod_mul]

theorem readLE_lt (m : List Host.Cell) (a n : Nat) : readLE m a n < 256 ^ n := by
  induction n generalizing a with
  | zero => simp [readLE]
  | succ n ih =>
    have h1 := ih (a + 1)
    have h2 := (readByte m a).isLt
    simp only [readLE, pow_succ']
    omega

/-! ### Runs of samples (R163, R166) -/

theorem memWf_writeSamples (m : List Host.Cell) (hm : memWf m = true) (a w : Nat) (vs : List Nat) :
    memWf (writeSamples m a w vs) = true := by
  induction vs generalizing m a with
  | nil => exact hm
  | cons v vs ih => exact ih _ (memWf_writeLE m hm a w v) _

theorem cellsBelow_writeSamples {k : Nat} {m : List Host.Cell} (a w : Nat) (vs : List Nat)
    (ha : a + w * vs.length ≤ k) (h : cellsBelow k m) : cellsBelow k (writeSamples m a w vs) := by
  induction vs generalizing m a with
  | nil => exact h
  | cons v vs ih =>
    have e : w * (v :: vs).length = w + w * vs.length := by simp [Nat.mul_add, Nat.add_comm]
    rw [e] at ha
    exact ih (a + w) (by omega) (cellsBelow_writeLE a w v (by omega) h)

/-- `write_samples` leaves every byte outside its run alone. -/
theorem readByte_writeSamples_of_outside (m : List Host.Cell) (hm : memWf m = true) (a w x : Nat) (vs : List Nat)
    (hx : x < a ∨ a + w * vs.length ≤ x) : readByte (writeSamples m a w vs) x = readByte m x := by
  induction vs generalizing m a with
  | nil => rfl
  | cons v vs ih =>
    have e : w * (v :: vs).length = w + w * vs.length := by simp [Nat.mul_add, Nat.add_comm]
    rw [e] at hx
    simp only [writeSamples]
    rw [ih _ (memWf_writeLE m hm a w v) (a + w) (by omega), readByte_writeLE_of_outside m hm _ _ _ _ (by omega)]

/-- Sample `k` of a written run reads back as its encoding. -/
theorem readLE_writeSamples (m : List Host.Cell) (hm : memWf m = true) (a w k : Nat) (vs : List Nat)
    (hk : k < vs.length) : readLE (writeSamples m a w vs) (a + w * k) w = vs[k] % 256 ^ w := by
  induction vs generalizing m a k with
  | nil => simp at hk
  | cons v vs ih =>
    simp only [writeSamples]
    cases k with
    | zero =>
      rw [Nat.mul_zero, Nat.add_zero]
      refine (readLE_congr _ (writeLE m a w v) a w ?_).trans (readLE_writeLE m hm a w v)
      intro x h1 h2
      exact readByte_writeSamples_of_outside _ (memWf_writeLE m hm a w v) _ _ _ _ (by omega)
    | succ k =>
      have e : a + w * (k + 1) = a + w + w * k := by rw [Nat.mul_add, Nat.mul_one]; omega
      rw [e, ih _ (memWf_writeLE m hm a w v) (a + w) k (by simpa using hk)]
      rfl

@[simp] theorem readSamples_length (m : List Host.Cell) (a w n : Nat) : (readSamples m a w n).length = n := by
  induction n generalizing a with
  | zero => rfl
  | succ n ih => simp [readSamples, ih]

/-- Sample `k` of a run that is read (R163). -/
theorem readSamples_getElem (m : List Host.Cell) (a w n k : Nat) (hk : k < n) :
    (readSamples m a w n)[k]'(by simpa using hk) = readLE m (a + w * k) w := by
  induction n generalizing a k with
  | zero => omega
  | succ n ih =>
    cases k with
    | zero => rfl
    | succ k =>
      simp only [readSamples, List.getElem_cons_succ]
      rw [ih (a + w) k (by omega)]
      congr 1
      rw [Nat.mul_add, Nat.mul_one]
      omega

end Sys2Proof.Machine
end

