-- ==== Sys2Proof/Laws/PerInstr.lean ====
section
/-! SUPPORT. The families of statements made for every instruction. EncodesItsRow: the command word of a
well-formed instruction matches the row of spec/opcode_table.json that is its own, and the word of ILLEGAL matches no
row (30_encoding.md rule R72). -/

namespace Sys2Proof.Laws.EncodesItsRow

/-- The seven rows of R72 that have a mask, as (mask, match). -/
def rows : List (Word × Word) :=
  [(0xFFFFFFFF, 0x00000001), (0xFF0000FF, 0x00000002), (0xFF0000FF, 0x02000003), (0xFF0000FF, 0x04000003),
    (0x000000FF, 0x00000003), (0xFF0000FF, 0x00000004), (0xFF0000FF, 0x00000005)]

/-- The row of an instruction, where it has a mask. -/
def rowOf : Instr → Option (Word × Word)
  | .configure => some (0xFFFFFFFF, 0x00000001)
  | .setparams _ => some (0xFF0000FF, 0x00000002)
  | .processPcm16 _ => some (0xFF0000FF, 0x02000003)
  | .processPcmfloat _ => some (0xFF0000FF, 0x04000003)
  | .processFmt _ _ => some (0x000000FF, 0x00000003)
  | .reset _ => some (0xFF0000FF, 0x00000004)
  | .release _ => some (0xFF0000FF, 0x00000005)
  | .illegal _ => none

/-- The instruction's word matches its row; without one, it matches none. -/
def Statement (i : Instr) : Prop :=
  i.wf = true →
    match rowOf i with
    | some r => encode i &&& r.1 = r.2
    | none => ∀ r ∈ rows, encode i &&& r.1 ≠ r.2

/-- Masking a word field by field. -/
theorem and_fields (a a' : BitVec 8) (b b' : BitVec 16) (c c' d d' : BitVec 4) :
    (((a ++ b) ++ (c ++ d) : Word) &&& ((a' ++ b') ++ (c' ++ d') : Word))
      = ((a &&& a') ++ (b &&& b')) ++ ((c &&& c') ++ (d &&& d')) := by
  refine (BitVec.and_append (x₁ := a ++ b) (x₂ := a' ++ b') (y₁ := c ++ d) (y₂ := c' ++ d')).trans ?_
  rw [BitVec.and_append, BitVec.and_append]

/-- A command word under the mask that keeps FMT, RSV and OP. -/
theorem commandWord_and_fmt_op (fmt : BitVec 8) (h : Handle) (op : BitVec 4) :
    commandWord fmt h op &&& 0xFF0000FF = commandWord fmt 0 op := by
  have e := and_fields fmt (BitVec.allOnes 8) h 0 0 (BitVec.allOnes 4) op (BitVec.allOnes 4)
  rw [BitVec.and_allOnes, BitVec.and_allOnes, BitVec.and_allOnes, show h &&& 0 = 0 from BitVec.and_zero] at e
  exact e

/-- A command word under the mask that keeps RSV and OP. -/
theorem commandWord_and_op (fmt : BitVec 8) (h : Handle) (op : BitVec 4) :
    commandWord fmt h op &&& 0x000000FF = commandWord 0 0 op := by
  have e := and_fields fmt 0 h 0 0 (BitVec.allOnes 4) op (BitVec.allOnes 4)
  rw [BitVec.and_allOnes, BitVec.and_allOnes, show h &&& 0 = 0 from BitVec.and_zero,
    show fmt &&& 0 = 0 from BitVec.and_zero] at e
  exact e

theorem configure : Statement .configure := by
  intro _
  change encode .configure &&& 0xFFFFFFFF = 0x00000001
  decide

theorem setparams (h : Handle) : Statement (.setparams h) := by
  intro _
  exact (commandWord_and_fmt_op 0 h 2).trans (by decide)

theorem processPcm16 (h : Handle) : Statement (.processPcm16 h) := by
  intro _
  exact (commandWord_and_fmt_op 2 h 3).trans (by decide)

theorem processPcmfloat (h : Handle) : Statement (.processPcmfloat h) := by
  intro _
  exact (commandWord_and_fmt_op 4 h 3).trans (by decide)

theorem processFmt (fmt : BitVec 8) (h : Handle) : Statement (.processFmt fmt h) := by
  intro _
  exact (commandWord_and_op fmt h 3).trans (by decide)

theorem reset (h : Handle) : Statement (.reset h) := by
  intro _
  exact (commandWord_and_fmt_op 0 h 4).trans (by decide)

theorem release (h : Handle) : Statement (.release h) := by
  intro _
  exact (commandWord_and_fmt_op 0 h 5).trans (by decide)

/-- Two words that agree under a mask agree on every field the mask keeps whole. -/
theorem field_of_mask (w mask v : Word) (h : w &&& mask = v) (start len : Nat)
    (hm : mask.extractLsb' start len = BitVec.allOnes len) : w.extractLsb' start len = v.extractLsb' start len := by
  rw [← h, BitVec.extractLsb'_and, hm, BitVec.and_allOnes]

theorem illegal (w : Word) : Statement (.illegal w) := by
  intro hw r hr he
  have hm : isIllegalWord w = true := hw
  change w &&& r.1 = r.2 at he
  unfold isIllegalWord at hm
  simp only [rows, List.mem_cons, List.not_mem_nil, or_false] at hr
  rcases hr with rfl | rfl | rfl | rfl | rfl | rfl | rfl
  · rw [show w = 1 from (BitVec.and_allOnes (x := w)).symm.trans he] at hm
    exact absurd hm (by decide)
  all_goals
    have h0 := field_of_mask w _ _ he 0 4 (by decide)
    have h1 := field_of_mask w _ _ he 4 4 (by decide)
    rw [h0, h1] at hm
  case inr.inr.inr.inr.inl => exact absurd hm (by simp)
  all_goals
    have h2 := field_of_mask w _ _ he 24 8 (by decide)
    rw [h2] at hm
    exact absurd hm (by simp)

end Sys2Proof.Laws.EncodesItsRow
end

