-- ==== Sys2Proof/Laws/State.lean ====
section
/-! SUPPORT. What each update of the state leaves alone, field by field, so that no later proof unfolds a record
update; and the shared operations on the slot array, each with the one lemma that says all it can do. -/

namespace Sys2Proof.Machine

/-! ### Ending a command -/

@[simp] theorem raise_status (e : Status) (s : State) : (raise e s).status = statusWord e := rfl
@[simp] theorem raise_fault (e : Status) (s : State) : (raise e s).fault = s.fault ||| faultBit e := rfl
@[simp] theorem raise_plat (e : Status) (s : State) : (raise e s).plat = s.plat := rfl
@[simp] theorem raise_cmd (e : Status) (s : State) : (raise e s).cmd = s.cmd := rfl
@[simp] theorem raise_a0 (e : Status) (s : State) : (raise e s).a0 = s.a0 := rfl
@[simp] theorem raise_a1 (e : Status) (s : State) : (raise e s).a1 = s.a1 := rfl
@[simp] theorem raise_a2 (e : Status) (s : State) : (raise e s).a2 = s.a2 := rfl
@[simp] theorem raise_a3 (e : Status) (s : State) : (raise e s).a3 = s.a3 := rfl
@[simp] theorem raise_a4 (e : Status) (s : State) : (raise e s).a4 = s.a4 := rfl
@[simp] theorem raise_a5 (e : Status) (s : State) : (raise e s).a5 = s.a5 := rfl
@[simp] theorem raise_result (e : Status) (s : State) : (raise e s).result = s.result := rfl
@[simp] theorem raise_slots (e : Status) (s : State) : (raise e s).slots = s.slots := rfl
@[simp] theorem raise_mem (e : Status) (s : State) : (raise e s).mem = s.mem := rfl
@[simp] theorem raise_host (e : Status) (s : State) : (raise e s).host = s.host := rfl
@[simp] theorem raise_readData (e : Status) (s : State) : (raise e s).readData = s.readData := rfl
@[simp] theorem raise_session (e : Status) (s : State) : (raise e s).session = s.session := rfl
@[simp] theorem raise_written (e : Status) (s : State) : (raise e s).written = s.written := rfl
@[simp] theorem raise_released (e : Status) (s : State) : (raise e s).released = s.released := rfl
@[simp] theorem raise_draws (e : Status) (s : State) : (raise e s).draws = s.draws := rfl

@[simp] theorem finish_status (s : State) : (finish s).status = statusWord .ok := rfl
@[simp] theorem finish_plat (s : State) : (finish s).plat = s.plat := rfl
@[simp] theorem finish_cmd (s : State) : (finish s).cmd = s.cmd := rfl
@[simp] theorem finish_a0 (s : State) : (finish s).a0 = s.a0 := rfl
@[simp] theorem finish_a1 (s : State) : (finish s).a1 = s.a1 := rfl
@[simp] theorem finish_a2 (s : State) : (finish s).a2 = s.a2 := rfl
@[simp] theorem finish_a3 (s : State) : (finish s).a3 = s.a3 := rfl
@[simp] theorem finish_a4 (s : State) : (finish s).a4 = s.a4 := rfl
@[simp] theorem finish_a5 (s : State) : (finish s).a5 = s.a5 := rfl
@[simp] theorem finish_result (s : State) : (finish s).result = s.result := rfl
@[simp] theorem finish_fault (s : State) : (finish s).fault = s.fault := rfl
@[simp] theorem finish_slots (s : State) : (finish s).slots = s.slots := rfl
@[simp] theorem finish_mem (s : State) : (finish s).mem = s.mem := rfl
@[simp] theorem finish_host (s : State) : (finish s).host = s.host := rfl
@[simp] theorem finish_readData (s : State) : (finish s).readData = s.readData := rfl
@[simp] theorem finish_session (s : State) : (finish s).session = s.session := rfl
@[simp] theorem finish_written (s : State) : (finish s).written = s.written := rfl
@[simp] theorem finish_released (s : State) : (finish s).released = s.released := rfl
@[simp] theorem finish_draws (s : State) : (finish s).draws = s.draws := rfl

/-! ### Writing a slot -/

@[simp] theorem setSlot_slots (s : State) (i : Nat) (sl : Slot) : (setSlot s i sl).slots = s.slots.set i sl := rfl
@[simp] theorem setSlot_plat (s : State) (i : Nat) (sl : Slot) : (setSlot s i sl).plat = s.plat := rfl
@[simp] theorem setSlot_cmd (s : State) (i : Nat) (sl : Slot) : (setSlot s i sl).cmd = s.cmd := rfl
@[simp] theorem setSlot_a0 (s : State) (i : Nat) (sl : Slot) : (setSlot s i sl).a0 = s.a0 := rfl
@[simp] theorem setSlot_a1 (s : State) (i : Nat) (sl : Slot) : (setSlot s i sl).a1 = s.a1 := rfl
@[simp] theorem setSlot_a2 (s : State) (i : Nat) (sl : Slot) : (setSlot s i sl).a2 = s.a2 := rfl
@[simp] theorem setSlot_a3 (s : State) (i : Nat) (sl : Slot) : (setSlot s i sl).a3 = s.a3 := rfl
@[simp] theorem setSlot_a4 (s : State) (i : Nat) (sl : Slot) : (setSlot s i sl).a4 = s.a4 := rfl
@[simp] theorem setSlot_a5 (s : State) (i : Nat) (sl : Slot) : (setSlot s i sl).a5 = s.a5 := rfl
@[simp] theorem setSlot_status (s : State) (i : Nat) (sl : Slot) : (setSlot s i sl).status = s.status := rfl
@[simp] theorem setSlot_result (s : State) (i : Nat) (sl : Slot) : (setSlot s i sl).result = s.result := rfl
@[simp] theorem setSlot_fault (s : State) (i : Nat) (sl : Slot) : (setSlot s i sl).fault = s.fault := rfl
@[simp] theorem setSlot_mem (s : State) (i : Nat) (sl : Slot) : (setSlot s i sl).mem = s.mem := rfl
@[simp] theorem setSlot_host (s : State) (i : Nat) (sl : Slot) : (setSlot s i sl).host = s.host := rfl
@[simp] theorem setSlot_readData (s : State) (i : Nat) (sl : Slot) : (setSlot s i sl).readData = s.readData := rfl
@[simp] theorem setSlot_session (s : State) (i : Nat) (sl : Slot) : (setSlot s i sl).session = s.session := rfl
@[simp] theorem setSlot_written (s : State) (i : Nat) (sl : Slot) : (setSlot s i sl).written = s.written := rfl
@[simp] theorem setSlot_released (s : State) (i : Nat) (sl : Slot) : (setSlot s i sl).released = s.released := rfl
@[simp] theorem setSlot_draws (s : State) (i : Nat) (sl : Slot) : (setSlot s i sl).draws = s.draws := rfl

/-! ### Power-on reset -/

@[simp] theorem powerOnReset_plat (s : State) : (powerOnReset s).plat = s.plat := rfl
@[simp] theorem powerOnReset_mem (s : State) : (powerOnReset s).mem = s.mem := rfl
@[simp] theorem powerOnReset_host (s : State) : (powerOnReset s).host = s.host := rfl
@[simp] theorem powerOnReset_readData (s : State) : (powerOnReset s).readData = s.readData := rfl
@[simp] theorem powerOnReset_draws (s : State) : (powerOnReset s).draws = s.draws := rfl
@[simp] theorem powerOnReset_session (s : State) : (powerOnReset s).session = .idle := rfl
@[simp] theorem powerOnReset_written (s : State) : (powerOnReset s).written = [] := rfl
@[simp] theorem powerOnReset_released (s : State) : (powerOnReset s).released = [] := rfl
@[simp] theorem powerOnReset_slots (s : State) :
    (powerOnReset s).slots = List.replicate s.plat.nSlots Slot.reset := rfl

/-! ### Issuing a command -/

@[simp] theorem issue_cmd (agent : Nat) (w : Word) (s : State) : (issue agent w s).cmd = w := rfl
@[simp] theorem issue_session (agent : Nat) (w : Word) (s : State) : (issue agent w s).session = .due agent := rfl
@[simp] theorem issue_released (agent : Nat) (w : Word) (s : State) :
    (issue agent w s).released = releasedAfter (decode w) s := rfl
@[simp] theorem issue_written (agent : Nat) (w : Word) (s : State) : (issue agent w s).written = s.written := rfl
@[simp] theorem issue_plat (agent : Nat) (w : Word) (s : State) : (issue agent w s).plat = s.plat := rfl
@[simp] theorem issue_a0 (agent : Nat) (w : Word) (s : State) : (issue agent w s).a0 = s.a0 := rfl
@[simp] theorem issue_a1 (agent : Nat) (w : Word) (s : State) : (issue agent w s).a1 = s.a1 := rfl
@[simp] theorem issue_a2 (agent : Nat) (w : Word) (s : State) : (issue agent w s).a2 = s.a2 := rfl
@[simp] theorem issue_a3 (agent : Nat) (w : Word) (s : State) : (issue agent w s).a3 = s.a3 := rfl
@[simp] theorem issue_a4 (agent : Nat) (w : Word) (s : State) : (issue agent w s).a4 = s.a4 := rfl
@[simp] theorem issue_a5 (agent : Nat) (w : Word) (s : State) : (issue agent w s).a5 = s.a5 := rfl
@[simp] theorem issue_status (agent : Nat) (w : Word) (s : State) : (issue agent w s).status = s.status := rfl
@[simp] theorem issue_result (agent : Nat) (w : Word) (s : State) : (issue agent w s).result = s.result := rfl
@[simp] theorem issue_fault (agent : Nat) (w : Word) (s : State) : (issue agent w s).fault = s.fault := rfl
@[simp] theorem issue_slots (agent : Nat) (w : Word) (s : State) : (issue agent w s).slots = s.slots := rfl
@[simp] theorem issue_mem (agent : Nat) (w : Word) (s : State) : (issue agent w s).mem = s.mem := rfl
@[simp] theorem issue_host (agent : Nat) (w : Word) (s : State) : (issue agent w s).host = s.host := rfl
@[simp] theorem issue_readData (agent : Nat) (w : Word) (s : State) : (issue agent w s).readData = s.readData := rfl
@[simp] theorem issue_draws (agent : Nat) (w : Word) (s : State) : (issue agent w s).draws = s.draws := rfl
@[simp] theorem liveSlot_issue (agent : Nat) (w : Word) (s : State) (h : Handle) :
    liveSlot (issue agent w s) h = liveSlot s h := rfl

/-! ### The slot array -/

/-- `liveSlot` answers exactly the slot a handle names as a live instance (R28). -/
theorem liveSlot_eq_some (s : State) (h : Handle) (sl : Slot) :
    liveSlot s h = some sl ↔
      handleSlot h < s.plat.nSlots ∧ s.slots[handleSlot h]? = some sl ∧ sl.state = .live ∧ sl.gen = handleGen h := by
  unfold liveSlot
  split
  · next hlt =>
    split
    · next x hx =>
      split
      · next hc =>
        constructor
        · intro he
          cases he
          exact ⟨hlt, hx, hc⟩
        · rintro ⟨-, he, -⟩
          rw [← hx, he]
      · next hc =>
        constructor
        · intro he
          cases he
        · rintro ⟨-, he, hl⟩
          rw [hx] at he
          cases he
          exact absurd hl hc
    · next hn =>
      constructor
      · intro he
        cases he
      · rintro ⟨-, he, -⟩
        rw [hn] at he
        cases he
  · next hge =>
    constructor
    · intro he
      cases he
    · rintro ⟨hlt, -⟩
      exact absurd hlt hge

/-- A slot `liveSlot` answers is one of the array's. -/
theorem liveSlot_mem (s : State) (h : Handle) (sl : Slot) (hl : liveSlot s h = some sl) : sl ∈ s.slots :=
  List.mem_of_getElem? ((liveSlot_eq_some s h sl).1 hl).2.1

/-- `freeSlot` answers the least FREE slot (R191). -/
theorem freeSlot_eq_some (s : State) (i : Nat) :
    freeSlot s = some i ↔
      ∃ hi : i < s.slots.length, s.slots[i].state = .free ∧
        ∀ j (hj : j < i), s.slots[j].state = .live := by
  unfold freeSlot
  rw [List.findIdx?_eq_some_iff_getElem]
  have hns : ∀ st : SlotState, (¬ st = .free) ↔ st = .live := by intro st; cases st <;> simp
  simp [hns]

/-- `freeSlot` answers none exactly when every slot is LIVE (R191). -/
theorem freeSlot_eq_none (s : State) : freeSlot s = none ↔ ∀ sl ∈ s.slots, sl.state = .live := by
  unfold freeSlot
  rw [List.findIdx?_eq_none_iff]
  have hns : ∀ st : SlotState, (¬ st = .free) ↔ st = .live := by intro st; cases st <;> simp
  simp [hns]

end Sys2Proof.Machine
end

