-- ==== Sys2Proof/Laws/Process.lean ====
section
/-! SUPPORT. What the shared operations of PROCESS do (43_stereo_adapter.md): the runs and their lengths, and the
one lemma that says when all its checks pass. -/

namespace Sys2Proof.Machine

/-! ### Runs (R164, R166) -/

/-- Entry `j` of the left run is sample `2j` (R164). -/
theorem leftRun_getElem? (xs : List Nat) (j : Nat) : (leftRun xs)[j]? = xs[2 * j]? := by
  fun_induction leftRun xs generalizing j with
  | case1 l r rest ih => cases j with
    | zero => simp
    | succ j => simp [ih, Nat.mul_add]
  | case2 l => cases j with
    | zero => simp
    | succ j => simp [Nat.mul_add]
  | case3 => simp

/-- Entry `j` of the right run is sample `2j + 1` (R164). -/
theorem rightRun_getElem? (xs : List Nat) (j : Nat) : (rightRun xs)[j]? = xs[2 * j + 1]? := by
  fun_induction rightRun xs generalizing j with
  | case1 l r rest ih => cases j with
    | zero => simp
    | succ j => simp [ih, Nat.mul_add]
  | case2 l => simp
  | case3 => simp

/-- An even number of samples gives each channel half of them (R162). -/
theorem leftRun_length (xs : List Nat) : (leftRun xs).length = (xs.length + 1) / 2 := by
  fun_induction leftRun xs with
  | case1 l r rest ih => simp only [List.length_cons, ih]; omega
  | case2 l => simp
  | case3 => rfl

theorem rightRun_length (xs : List Nat) : (rightRun xs).length = xs.length / 2 := by
  fun_induction rightRun xs with
  | case1 l r rest ih => simp only [List.length_cons, ih]; omega
  | case2 l => simp
  | case3 => rfl

/-- Two runs of one length interleave to twice it (R166). -/
theorem interleave_length (ls rs : List Nat) (h : ls.length = rs.length) :
    (interleave ls rs).length = 2 * ls.length := by
  fun_induction interleave ls rs with
  | case1 l ls r rs ih =>
    simp only [List.length_cons] at h ⊢
    rw [ih (by omega)]
    omega
  | case2 => simp
  | case3 l ls => simp at h

/-- The even samples of an interleaved buffer are the left channel's (R166). -/
theorem interleave_even (ls rs : List Nat) (h : ls.length = rs.length) (j : Nat) :
    (interleave ls rs)[2 * j]? = ls[j]? := by
  fun_induction interleave ls rs generalizing j with
  | case1 l ls r rs ih => cases j with
    | zero => simp
    | succ j =>
      simp only [List.length_cons] at h
      simp [ih (by omega), Nat.mul_add]
  | case2 => simp
  | case3 l ls => simp at h

/-- The odd samples of an interleaved buffer are the right channel's (R166). -/
theorem interleave_odd (ls rs : List Nat) (h : ls.length = rs.length) (j : Nat) :
    (interleave ls rs)[2 * j + 1]? = rs[j]? := by
  fun_induction interleave ls rs generalizing j with
  | case1 l ls r rs ih => cases j with
    | zero => simp
    | succ j =>
      simp only [List.length_cons] at h
      simp [ih (by omega), Nat.mul_add]
  | case2 rs =>
    have hr : rs = [] := List.length_eq_zero_iff.1 h.symm
    simp [hr]
  | case3 l ls => simp at h

/-! ### The filters -/

@[simp] theorem filterF32_length (d : Nat) (c : Coef) (h : Hist) (xs : List F32) :
    (filterF32 d c h xs).1.length = xs.length := by
  induction xs generalizing d h with
  | nil => rfl
  | cons x xs ih => simp [filterF32, ih]

@[simp] theorem filterI16_length (d : Nat) (c : Coef) (h : Hist) (ks : List Int) :
    (filterI16 d c h ks).1.length = ks.length := by
  induction ks generalizing d h with
  | nil => rfl
  | cons x xs ih => simp [filterI16, ih]

@[simp] theorem channelFilter_length (fmt : BitVec 8) (d : Nat) (c : Coef) (h : Hist) (run : List Nat) :
    (channelFilter fmt d c h run).1.length = run.length := by
  unfold channelFilter
  split <;> simp [channelI16, channelF32]

/-! ### The checks (R160, R161) -/

/-- When every check of PROCESS passes. -/
theorem processCheck_eq_ok (fmt : BitVec 8) (h : Handle) (s : State) (sl : Slot) :
    processCheck fmt h s = .ok sl ↔
      liveSlot s h = some sl ∧ sl.numFault = false ∧ viewsOk s.plat (viewsOf s) = true
        ∧ rangeOk (viewsOf s) = true ∧ fmtSupported fmt = true
        ∧ lengthOk (viewsOf s) (sampleWidth fmt) = true := by
  unfold processCheck
  cases hl : liveSlot s h with
  | none => simp
  | some x =>
    cases h1 : x.numFault <;> cases h2 : viewsOk s.plat (viewsOf s) <;> cases h3 : rangeOk (viewsOf s) <;>
      cases h4 : fmtSupported fmt <;> cases h5 : lengthOk (viewsOf s) (sampleWidth fmt) <;>
      simp_all <;> rintro rfl <;> assumption

/-- PROCESS ends in one of two ways: a check fails and only STATUS and FAULT change, or all pass and it runs
(R168). -/
theorem process_cases (fmt : BitVec 8) (h : Handle) (s : State) :
    (∃ e, processCheck fmt h s = .error e ∧ process fmt h s = raise e s)
      ∨ ∃ sl, processCheck fmt h s = .ok sl ∧ process fmt h s = finish (processRun fmt h sl s) := by
  unfold process
  cases hc : processCheck fmt h s with
  | error e => exact .inl ⟨e, rfl, rfl⟩
  | ok sl => exact .inr ⟨sl, rfl, rfl⟩

end Sys2Proof.Machine
end

