-- ==== Sys2Proof/Laws/Step.lean ====
section
/-! SUPPORT. What one step can do, said once (10_state.md rule R39, 30_encoding.md rule R70), and when the duties of
70_reset_and_hazards.md rule R256 let a command be issued. -/

namespace Sys2Proof.Machine

/-- `argsReady` in the words of H1. -/
theorem argsReady_iff (i : Instr) (s : State) : argsReady i s = true ↔ ∀ k, k < argCount i → k ∈ s.written := by
  simp [argsReady]

/-- `namesStale` in the words of H6. -/
theorem namesStale_iff (i : Instr) (s : State) :
    namesStale i s = true ↔ ∃ h, handleOf i = some h ∧ h ∈ s.released ∧ (liveSlot s h).isSome = true := by
  unfold namesStale
  cases handleOf i <;> simp

/-- The duties of a command are kept exactly when its arguments are written and its handle is not stale. -/
theorem commandDuty_eq_none (i : Instr) (s : State) :
    commandDuty i s = none ↔ argsReady i s = true ∧ namesStale i s = false := by
  unfold commandDuty
  cases argsReady i s <;> cases namesStale i s <;> simp

theorem argsReady_dutiesMet (i : Instr) (s : State) : argsReady i (dutiesMet i s) = true := by
  rw [argsReady_iff]
  intro k hk
  exact List.mem_union_iff.2 (.inl (List.mem_range.2 hk))

theorem namesStale_dutiesMet (i : Instr) (s : State) : namesStale i (dutiesMet i s) = false := by
  by_contra hc
  obtain ⟨h, hi, hm, -⟩ := (namesStale_iff i _).1 (by simpa using hc)
  exact of_decide_eq_true (List.mem_filter.1 hm).2 hi

/-- `dutiesMet` keeps the duties of the command. -/
theorem commandDuty_dutiesMet (i : Instr) (s : State) : commandDuty i (dutiesMet i s) = none :=
  (commandDuty_eq_none i _).2 ⟨argsReady_dutiesMet i s, namesStale_dutiesMet i s⟩

/-- A released handle stays recorded when a command is issued. -/
theorem mem_releasedAfter (i : Instr) (s : State) (h : Handle) (hm : h ∈ s.released) : h ∈ releasedAfter i s := by
  cases i <;> simp only [releasedAfter] <;> first | exact hm | skip
  split
  · exact List.mem_cons_of_mem _ hm
  · exact hm

@[simp] theorem liveSlot_host (s : State) (rest : List HostEvent) (h : Handle) :
    liveSlot { s with host := rest } h = liveSlot s h := rfl

@[simp] theorem commandDuty_host (i : Instr) (s : State) (rest : List HostEvent) :
    commandDuty i { s with host := rest } = commandDuty i s := rfl

/-- A CMD write by an agent whose turn it is reaches `cmdWrite`. -/
theorem step_cmdWrite {s : State} {agent : Nat} {w : Word} {rest : List HostEvent}
    (hh : s.host = .regWrite agent s.plat.regBase 32 w :: rest)
    (hs : s.session = .idle ∨ s.session = .args agent ∨ s.session = .due agent) :
    step s = cmdWrite agent w { s with host := rest } := by
  simp only [step, hh, hostEvent, busWrite, accessError]
  rcases hs with h | h | h <;> simp [dutyError, isArgOffset, h]

/-- What a register write that answers a next state does. -/
theorem busWrite_cases {agent addr width : Nat} {v : Word} {s t : State} (h : busWrite agent addr width v s = .next t) :
    accessError s addr width = none ∧ dutyError s agent (addr - s.plat.regBase) = none ∧
      ((addr - s.plat.regBase = 0 ∧ commandDuty (decode v) s = none ∧ exec (decode v) (issue agent v s) = .next t) ∨
        (addr - s.plat.regBase ≠ 0 ∧ t = argWrite agent (addr - s.plat.regBase) v s)) := by
  unfold busWrite at h
  split at h
  · cases h
  · next ha =>
    dsimp only at h
    split at h
    · cases h
    · next hd =>
      refine ⟨ha, hd, ?_⟩
      split at h
      · next h0 =>
        unfold cmdWrite at h
        split at h
        · cases h
        · next hc => exact .inl ⟨h0, hc, h⟩
      · next h0 =>
        cases h
        exact .inr ⟨h0, rfl⟩

/-- What a register read that answers a next state does. -/
theorem busRead_cases {agent addr width : Nat} {s t : State} (h : busRead agent addr width s = .next t) :
    accessError s addr width = none ∧
      t = { s with
        readData := some (readReg s (addr - s.plat.regBase))
        session := sessionAfterRead s.session agent (addr - s.plat.regBase) } := by
  unfold busRead at h
  split at h
  · cases h
  · next ha =>
    cases h
    exact ⟨ha, rfl⟩

/-- All a step can do when it answers a next state: idle, or a register read, a register write, a data write or a
power-on reset, whichever heads the host's accesses. -/
theorem step_cases {s t : State} (h : step s = .next t) :
    (s.host = [] ∧ t = s) ∨
    (∃ agent addr width rest, s.host = .regRead agent addr width :: rest ∧
      busRead agent addr width { s with host := rest } = .next t) ∨
    (∃ agent addr width v rest, s.host = .regWrite agent addr width v :: rest ∧
      busWrite agent addr width v { s with host := rest } = .next t) ∨
    (∃ addr v rest, s.host = .dataWrite addr v :: rest ∧ addr < 2 ^ s.plat.addrBits ∧
      t = { s with host := rest, mem := writeByte s.mem addr v }) ∨
    (∃ rest, s.host = .powerOnReset :: rest ∧ t = powerOnReset { s with host := rest }) := by
  unfold step at h
  split at h
  · next he =>
    cases h
    exact .inl ⟨he, rfl⟩
  · next e rest he =>
    cases e with
    | regRead agent addr width => exact .inr (.inl ⟨agent, addr, width, rest, he, h⟩)
    | regWrite agent addr width v => exact .inr (.inr (.inl ⟨agent, addr, width, v, rest, he, h⟩))
    | dataWrite addr v =>
      simp only [hostEvent, hostDataWrite] at h
      split at h
      · next hlt =>
        cases h
        exact .inr (.inr (.inr (.inl ⟨addr, v, rest, he, hlt, rfl⟩)))
      · cases h
    | powerOnReset =>
      cases h
      exact .inr (.inr (.inr (.inr ⟨rest, he, rfl⟩)))

end Sys2Proof.Machine
end

