-- ==== Sys2Proof/Tests/Slice0.lean ====
section
/-! SUPPORT. The model's own tests. The expected values are those of spec/95_test_vectors.md and the spec's own
examples, named at each test; and a named witness for the hypotheses of each statement. -/

namespace Sys2Proof.Machine

/-! ### Well-formedness (R75 to R77): an ill-formed term for each check -/

theorem test_wf_refuses_pcm16_as_fmt : (Instr.processFmt 0x02 0x0000).wf = false := by decide
theorem test_wf_refuses_pcmfloat_as_fmt : (Instr.processFmt 0x04 0x0000).wf = false := by decide
theorem test_wf_refuses_configure_as_illegal : (Instr.illegal 0x00000001).wf = false := by decide
theorem test_wf_refuses_process_as_illegal : (Instr.illegal 0xFF000003).wf = false := by decide
theorem test_wf_refuses_release_as_illegal : (Instr.illegal 0x00010005).wf = false := by decide
theorem test_wf_accepts_fmt_255 : (Instr.processFmt 0xFF 0x0000).wf = true := by decide

/-! ### Decoding: words written out from the fields of R71, FMT GEN SLOT RSV OP -/

theorem test_decode_configure : decode 0b00000000_00000000_00000000_0000_0001#32 = .configure := by decide
theorem test_decode_setparams : decode 0b00000000_00000001_00000010_0000_0010#32 = .setparams 0x0102 := by decide
theorem test_decode_pcm16 : decode 0b00000010_10000000_00000001_0000_0011#32 = .processPcm16 0x8001 := by decide
theorem test_decode_pcmfloat : decode 0b00000100_00000001_00000000_0000_0011#32 = .processPcmfloat 0x0100 := by decide
theorem test_decode_fmt : decode 0b11111111_00000000_11111111_0000_0011#32 = .processFmt 0xFF 0x00FF := by decide
theorem test_decode_reset : decode 0b00000000_11111111_00000000_0000_0100#32 = .reset 0xFF00 := by decide
theorem test_decode_release : decode 0b00000000_00000001_00000001_0000_0101#32 = .release 0x0101 := by decide
/-- 95_test_vectors.md V-E10: RSV = 1 despite a PROCESS-like OP. -/
theorem test_decode_illegal : decode 0xFF000013 = .illegal 0xFF000013 := by decide
/-- V-E9. -/
theorem test_decode_setparams_with_fmt : decode 0x01000002 = .illegal 0x01000002 := by decide

/-! ### Small states: the platform and set-up of 95_test_vectors.md -/

/-- NEUTRAL. -/
def tNeutral : Coef := ⟨0x3F800000, 0, 0, 0, 0⟩
/-- SCEN. -/
def tScen : Coef := ⟨0x3F83EC57, 0xBFFF34D4, 0x3F769E3C, 0x3FFF34D4, 0xBF7E76EB⟩
/-- ZERO. -/
def tZero : Hist := ⟨0, 0, 0, 0⟩

/-- A live slot of generation 0. -/
def tSlot (c : Coef) : Slot := ⟨.live, 0, false, 44100, 4, c, c, tZero, tZero⟩

/-- Handle 0:0 live. -/
def tLive (c : Coef) : State := { State.reset with slots := [tSlot c] }

/-- The PROCESS arguments of the adapter vectors. -/
def tProc (c : Coef) (len : Word) (mem : List Host.Cell) : State :=
  { tLive c with a0 := 0x1000, a1 := 0, a2 := len, a3 := len, a4 := 0x2000, a5 := len, mem := mem }

/-- The input `E8 03 E8 03 18 FC 18 FC` at 0x1000. -/
def tInput : List Host.Cell :=
  [(0x1000, 0xE8), (0x1001, 0x03), (0x1002, 0xE8), (0x1003, 0x03), (0x1004, 0x18), (0x1005, 0xFC), (0x1006, 0x18),
    (0x1007, 0xFC)]

/-- The base of the adapter vectors. -/
def tBase : State := tProc tNeutral 8 tInput

/-- The arguments of V-D1 on a live instance. -/
def tParams (q : Word) : State :=
  { tLive tNeutral with a0 := 44100, a1 := 0x3F800000, a2 := 0x42C80000, a3 := q }

/-- The arguments of V-L1 on a reset block. -/
def tConf (rate ch : Word) : State := { State.reset with a0 := rate, a1 := ch, a2 := 4 }

/-- What a test looks at in an outcome. -/
def outcomeMap {α : Type} (f : State → α) : Host.Outcome State Fault Refusal → Option α
  | .next t => some (f t)
  | .fault _ => none
  | .refused _ => none

/-- The next `n` bytes from an address. -/
def bytesAt (t : State) (a : Nat) : Nat → List Byte
  | 0 => []
  | n + 1 => readByte t.mem a :: bytesAt t (a + 1) n

/-! ### CONFIGURE -/

/-- V-L1. -/
theorem test_configure :
    outcomeMap (fun t => (t.status, t.result, t.slots)) (exec .configure (tConf 44100 2))
      = some (0, 0, [tSlot tNeutral]) := by decide
/-- V-L7: the arguments are checked before the free slot. -/
theorem test_configure_order :
    outcomeMap (fun t => (t.status, t.result)) (exec .configure { tLive tNeutral with a0 := 0, a1 := 6 })
      = some (1, 0xFFFFFFFF) := by decide

/-! ### SETPARAMS -/

/-- V-D1 and V-D15: REF64's coefficients go to both channels. -/
theorem test_setparams :
    outcomeMap (fun t => (t.status, t.slots)) (exec (.setparams 0x0000) (tParams 0x3F34FDF4))
      = some (0, [tSlot tScen]) := by decide +kernel
/-- V-D6: q = 0 gives a NaN, so nothing is installed. -/
theorem test_setparams_nan :
    outcomeMap (fun t => (t.status, t.fault, t.slots)) (exec (.setparams 0x0000) (tParams 0))
      = some (3, 2, [{ tSlot tNeutral with numFault := true }]) := by decide +kernel

/-! ### REF64 -/

/-- V-D11. -/
theorem test_ref64_48k :
    ref64 21 48000 0x3F800000 0x447A0000 0x3F800000
      = ⟨0x3F99003D, 0xBFF8F593, 0x3F443695, 0x3FF8F593, 0xBF76370F⟩ := by decide +kernel
/-- V-D12: a negative q is finite and unstable. -/
theorem test_ref64_negative_q :
    ref64 21 44100 0x3F800000 0x42C80000 0xBF34FDF4
      = ⟨0x3F781B32, 0xC0005F87, 0x3F84B821, 0x40005F87, 0xBF80C5BA⟩ := by decide +kernel
/-- V-D10: a negative gain cuts. -/
theorem test_ref64_cut :
    ref64 21 44100 0xBF800000 0x42C80000 0x3F34FDF4
      = ⟨0x3F78630D, 0xBFF79DEC, 0x3F76E5A9, 0x3FF79DEC, 0xBF6F48B6⟩ := by decide +kernel
/-- V-D4: f = 0. -/
theorem test_ref64_zero_frequency :
    ref64 21 44100 0x3F800000 0 0x3F34FDF4 = ⟨0x3F800000, 0xC0000000, 0x3F800000, 0x40000000, 0xBF800000⟩ := by
  decide +kernel

/-! ### The Biquad State Machine -/

/-- V-F1: an impulse. -/
theorem test_filter_impulse :
    filterF32 0 tScen tZero [0x3F800000, 0, 0] = ([0x3F83EC57, 0x3D7A4E80, 0x3D78BAC0], ⟨0, 0, 0x3D78BAC0, 0x3D7A4E80⟩) := by
  decide +kernel
/-- V-F3: -0.0 becomes +0.0. -/
theorem test_filter_minus_zero :
    filterF32 0 tNeutral tZero [0x80000000] = ([0], ⟨0x80000000, 0, 0, 0⟩) := by decide +kernel
/-- V-F4: subnormals are kept. -/
theorem test_filter_subnormal :
    filterF32 0 tScen tZero [0x00000001] = ([0x00000001], ⟨0x00000001, 0, 0x00000001, 0⟩) := by decide +kernel
/-- V-F7. -/
theorem test_filter_infinity :
    filterF32 0 tScen tZero [0x7F800000] = ([0x7F800000], ⟨0x7F800000, 0, 0x7F800000, 0⟩) := by decide +kernel
/-- V-I2: the second buffer of V-P4. -/
theorem test_filter_i16 :
    filterI16 0 tScen ⟨0xBCFA01F4, 0x3CFA01F4, 0xBCF26474, 0x3D00D5CF⟩ [1000, -1000]
      = ([1030, -969], ⟨0xBCFA01F4, 0x3CFA01F4, 0xBCF27DBC, 0x3D00C97C⟩) := by decide +kernel
/-- V-I6: saturation above, and the history unclamped. -/
theorem test_filter_i16_saturates :
    filterI16 0 tScen tZero [32767, 32767, 32767]
      = ([32767, 32767, 32767], ⟨0x3F800000, 0x3F800000, 0x3F9384A2, 0x3F8BBECB⟩) := by decide +kernel
/-- V-I7: saturation below. -/
theorem test_filter_i16_saturates_below :
    filterI16 0 tScen tZero [-32768, -32768]
      = ([-32768, -32768], ⟨0xBF800100, 0xBF800100, 0xBF8BBFE3, 0xBF83ED5F⟩) := by decide +kernel
/-- V-I4: the neutral filter. -/
theorem test_filter_i16_neutral :
    (filterI16 0 tNeutral tZero [1000, -1000, 12345, -32768, 32767, 0, 1, -1]).1
      = [1000, -1000, 12345, -32768, 32767, 0, 1, -1] := by decide +kernel

/-! ### PROCESS -/

/-- V-A14: the left channel is filtered, the silent right channel stays silent. -/
theorem test_process_pcm16 :
    outcomeMap (fun t => (t.status, bytesAt t 0x2000 8, t.slots))
        (exec (.processPcm16 0x0000)
          (tProc tScen 8 [(0x1000, 0xE8), (0x1001, 0x03), (0x1004, 0x18), (0x1005, 0xFC)]))
      = some (0, [0x06, 0x04, 0x00, 0x00, 0x37, 0xFC, 0x00, 0x00],
          [{ tSlot tScen with hist0 := ⟨0xBCFA01F4, 0x3CFA01F4, 0xBCF26474, 0x3D00D5CF⟩ }]) := by decide +kernel
/-- V-A15: the output starts at offset 0 of its view. -/
theorem test_process_position :
    outcomeMap (fun t => (t.status, bytesAt t 0x2000 5)) (exec (.processPcm16 0x0000) { tBase with a1 := 4 })
      = some (0, [0x18, 0xFC, 0x18, 0xFC, 0x00]) := by decide +kernel
/-- V-P5's first frame, in place. -/
theorem test_process_pcmfloat :
    outcomeMap (fun t => (t.status, t.mem))
        (exec (.processPcmfloat 0x0000) { tProc tScen 8 [(0x1003, 0x3F), (0x1007, 0x3F)] with a4 := 0x1000 })
      = some (0, [(0x1000, 0x57), (0x1001, 0xEC), (0x1002, 0x03), (0x1003, 0x3F), (0x1004, 0x57), (0x1005, 0xEC),
          (0x1006, 0x03), (0x1007, 0x3F)]) := by decide +kernel
/-- V-A19: a partial float sample. -/
theorem test_process_partial :
    outcomeMap (fun t => (t.status, t.mem)) (exec (.processPcmfloat 0x0000) { tBase with a2 := 6 })
      = some (1, tInput) := by decide +kernel
/-- V-A10. -/
theorem test_process_fmt :
    outcomeMap (fun t => (t.status, t.fault, t.mem)) (exec (.processFmt 0x03 0x0000) tBase)
      = some (2, 0, tInput) := by decide +kernel
/-- V-A27: the range is checked before the format. -/
theorem test_process_fmt_range_first :
    outcomeMap (fun t => t.status) (exec (.processFmt 0x03 0x0000) { tBase with a1 := 6, a2 := 4 }) = some 1 := by
  decide +kernel
/-- V-A7 and V-A22: a view past the window, and a slot index past N_SLOTS. -/
theorem test_process_errors :
    outcomeMap (fun t => t.status) (exec (.processPcm16 0x0000) { tBase with a4 := 0x2FFC }) = some 1
      ∧ outcomeMap (fun t => (t.status, t.fault)) (exec (.processPcm16 0x0001) tBase) = some (4, 1) := by
  decide +kernel

/-- notes/assumptions/15.md: `-0.0` under neutral coefficients stays `-0.0` where every history product is `-0.0`, and
gives `+0.0` where one is `+0.0` (R131, R133). -/
theorem test_negative_zero :
    (bqStep 0 tNeutral ⟨0xBF800000, 0xBF800000, 0xBF800000, 0xBF800000⟩ 0x80000000).1 = 0x80000000
      ∧ (bqStep 0 tNeutral ⟨0x3F800000, 0xBF800000, 0x3F800000, 0xBF800000⟩ 0x80000000).1 = 0 := by decide +kernel

/-! ### RESET, RELEASE and ILLEGAL -/

/-- V-L8. -/
theorem test_reset :
    outcomeMap (fun t => (t.status, t.slots))
        (exec (.reset 0x0000) { tLive tScen with slots := [{ tSlot tScen with hist0 := ⟨1, 2, 3, 4⟩, hist1 := ⟨5, 6, 7, 8⟩ }] })
      = some (0, [tSlot tScen]) := by decide
/-- V-L9. -/
theorem test_reset_faulted :
    outcomeMap (fun t => (t.status, t.fault))
        (exec (.reset 0x0000) { tLive tScen with slots := [{ tSlot tScen with numFault := true }] })
      = some (3, 2) := by decide
/-- V-L10. -/
theorem test_release :
    outcomeMap (fun t => (t.status, t.slots)) (exec (.release 0x0000) (tLive tScen))
      = some (0, [{ Slot.reset with gen := 1 }]) := by decide
/-- V-L11, and the wrap of R32. -/
theorem test_release_again_and_wrap :
    outcomeMap (fun t => (t.status, t.fault))
        (exec (.release 0x0000) { tLive tScen with slots := [{ Slot.reset with gen := 1 }] }) = some (4, 1)
      ∧ outcomeMap (fun t => t.slots)
        (exec (.release 0xFF00) { tLive tScen with slots := [{ tSlot tScen with gen := 255 }] }) = some [Slot.reset] := by
  decide
/-- V-P8 line 3. -/
theorem test_illegal :
    outcomeMap (fun t => (t.status, t.result, t.fault)) (exec (.illegal 6) { State.reset with result := 0xFFFFFFFF })
      = some (5, 0xFFFFFFFF, 4) := by decide

/-! ### The bus -/

/-- V-P6 line 8: a released slot gives the handle 1:0. -/
theorem test_step_configure :
    outcomeMap (fun t => (t.cmd, t.status, t.result))
        (step (State.withFetchWord { tConf 44100 2 with slots := [{ Slot.reset with gen := 1 }] } 32 1))
      = some (1, 0, 0x100) := by decide
/-- CAPS of a one-slot block (R26). -/
theorem test_read_caps :
    outcomeMap (fun t => t.readData) (step { State.reset with host := [.regRead 0 0x28 32] }) = some (some 1) := by decide

/-! ### Witnesses: concrete states and operands that meet the hypotheses of the statements -/

theorem wit_live : namesLive (tParams 0x3F34FDF4) 0x0000 (tSlot tNeutral) := by decide

theorem wit_proc_live : namesLive tBase 0x0000 (tSlot tNeutral) := by decide

/-- A faulted instance. -/
def tFaulted : State := { tBase with slots := [{ tSlot tNeutral with numFault := true }] }

theorem slotSound_tSlot (c : Coef) (hc : coefFinite c = true) : slotSound (tSlot c) :=
  ⟨rfl, hc, fun h => by cases h⟩

theorem inv_of_parts (s : State) (hp : s.plat.wf = true) (hn : s.slots.length = s.plat.nSlots)
    (hs : ∀ sl ∈ s.slots, slotSound sl ∧ someSignClear sl.coef0) (hm : memWf s.mem = true)
    (hb : s.mem.all (fun c => decide (c.1 < 2 ^ s.plat.addrBits)) = true) (h1 : s.status.toNat ≤ 6)
    (h2 : s.fault.toNat ≤ 7) (h3 : resultSound s.result) (h4 : s.written.Nodup ∧ ∀ k ∈ s.written, k < 6 := by decide)
    (h5 : s.released.Nodup := by decide) : s.Inv :=
  ⟨hp, hn, fun sl h => (hs sl h).1, fun _ sl h => (hs sl h).2, ⟨hm, by simpa using hb⟩, h1, h2, h3, h4, h5⟩

theorem wit_inv_base : tBase.Inv :=
  inv_of_parts tBase (by decide) rfl (by intro sl h; cases List.mem_singleton.1 h; exact ⟨slotSound_tSlot _ (by decide), .inl rfl⟩)
    (by decide) (by decide) (by decide) (by decide) (.inr (by decide))

/-- EncodingRoundTrips. -/
theorem witness_EncodingRoundTrips : (Instr.processFmt 0x03 0x0100).wf = true ∧ (Instr.illegal 0x00000011).wf = true := by
  decide

/-- StepRunsIssuedCommand. -/
theorem witness_StepRunsIssuedCommand :
    ({ tBase with host := [HostEvent.regWrite 7 0 32 4], session := .due 7 } : State).host
        = .regWrite 7 tBase.plat.regBase 32 4 :: []
      ∧ ({ tBase with host := [HostEvent.regWrite 7 0 32 4], session := .due 7 } : State).session = .due 7 := by decide

/-- StepRunsIssuedCommand, and UnpreparedCommandsRefused in each clause: SETPARAMS and PROCESS whose last argument
register nobody has written; the handle 0:0 of V-L16, live again after 256 RELEASEs (duty H6); and SETPARAMS once A0 to
A3 are written. -/
theorem witness_CommandDuties :
    step { tBase with host := [.regWrite 0 0 32 2], written := [2, 1, 0] } = .refused .dutyH1
      ∧ step { tBase with host := [.regWrite 0 0 32 3], written := [4, 3, 2, 1, 0] } = .refused .dutyH1
      ∧ step { tBase with host := [.regWrite 0 0 32 4], released := [0x0100, 0x0000] } = .refused .dutyH6
      ∧ argsWritten (decode 2) { tBase with written := [3, 2, 1, 0] }
      ∧ ¬ argsWritten (decode 2) { tBase with written := [2, 1, 0] } := ⟨rfl, rfl, rfl, by decide, by decide⟩

/-- RecordedHandleNeverActsAgain: a RELEASE recorded, and a RESET of the handle on its freed slot. -/
theorem witness_RecordedHandle :
    outcomeMap (fun t => (t.status, t.released)) (step { tBase with host := [.regWrite 0 0 32 5] }) = some (0, [0x0000])
      ∧ outcomeMap (fun t => (t.status, t.fault, t.released))
          (step { tBase with
            slots := [{ Slot.reset with gen := 1 }], host := [.regWrite 0 0 32 4], released := [0x0000] })
        = some (4, 1, [0x0000]) := by decide

/-- FetchWordStepRuns. -/
theorem witness_FetchWordStepRuns : decodeTableWord 32 0x02000003 = some (.processPcm16 0x0000) := by decide

/-- RegisterReadsReturnValues, at the last offset. -/
theorem witness_RegisterReadsReturnValues :
    State.Inv { tBase with host := [.regRead 0 (0 + 4 * 15) 32] } ∧ 15 < 16 :=
  ⟨inv_of_parts _ (by decide) rfl
    (by intro sl h; cases List.mem_singleton.1 h; exact ⟨slotSound_tSlot _ (by decide), .inl rfl⟩)
    (by decide) (by decide) (by decide) (by decide) (.inr (by decide)), by decide⟩

/-- ArgumentWritesStore, at A0 and A5; ReadOnlyWritesIgnored, at STATUS and the last offset. -/
theorem witness_BusWrites :
    ({ tBase with host := [HostEvent.regWrite 0 (0 + 4 + 4 * 0) 32 9] } : State).session = .idle
      ∧ ({ tBase with host := [HostEvent.regWrite 0 (0 + 4 + 4 * 5) 32 9], session := .args 0 } : State).host
        = [.regWrite 0 (tBase.plat.regBase + 4 + 4 * 5) 32 9]
      ∧ ({ tBase with host := [HostEvent.regWrite 0 (0 + 4 * 7) 32 9], session := .due 0 } : State).host
        = [.regWrite 0 (tBase.plat.regBase + 4 * 7) 32 9]
      ∧ ({ tBase with host := [HostEvent.regWrite 0 (0 + 4 * 15) 32 9] } : State).host
        = [.regWrite 0 (tBase.plat.regBase + 4 * 15) 32 9] := by decide

/-- MalformedAccessesRefused: a byte read, and a misaligned write. -/
theorem witness_MalformedAccessesRefused :
    outcomeMap (fun t => t.status) (step { tBase with host := [.regRead 0 0x1C 8] }) = none
      ∧ step { tBase with host := [.regRead 0 0x1C 8] } = .refused .busAccess
      ∧ step { tBase with host := [.regWrite 0 0x3F 32 1] } = .refused .busAccess := ⟨rfl, rfl, rfl⟩

/-- BrokenDutiesRefused: H1 at A0 and A5, H2 in both sessions. -/
theorem witness_BrokenDutiesRefused :
    step { tBase with host := [.regWrite 0 0x04 32 1], session := .due 0 } = .refused .dutyH1
      ∧ step { tBase with host := [.regWrite 0 0x18 32 1], session := .due 0 } = .refused .dutyH1
      ∧ step { tBase with host := [.regWrite 0 0x00 32 1], session := .args 1 } = .refused .dutyH2
      ∧ step { tBase with host := [.regWrite 0 0x3C 32 1], session := .due 1 } = .refused .dutyH2 :=
  ⟨rfl, rfl, rfl, rfl⟩

/-- PowerOnResetValues. -/
theorem witness_PowerOnResetValues :
    tBase.plat.wf = true
      ∧ ({ tBase with host := [HostEvent.powerOnReset] } : State).host = .powerOnReset :: [] := by decide

/-- ResetMeetsInvariant: a platform of 256 slots and another of the least sizes. -/
theorem witness_ResetMeetsInvariant :
    (Platform.mk 256 32 0x1000 0xFFFFEFFF 0 .implementation).wf = true ∧ (Platform.mk 1 1 0 1 0 .reference).wf = true := by
  decide

/-- StepKeepsInvariant and FaultBitsSticky: a step that answers a next state from a sound state. -/
theorem witness_StepKeepsInvariant : tBase.Inv ∧ step tBase = .next tBase ∧ tBase.host = [] := ⟨wit_inv_base, rfl, rfl⟩

/-- DataWriteChangesOneByte, at the last address and above it. -/
theorem witness_DataWriteChangesOneByte :
    outcomeMap (fun t => readByte t.mem 0xFFFFFFFF) (step { tBase with host := [.dataWrite 0xFFFFFFFF 0xA5] }) = some 0xA5
      ∧ step { tBase with host := [.dataWrite 0x100000000 0xA5] } = .fault .noSuchAddress := ⟨by decide, rfl⟩

/-- EqualReadsEqualMemories. -/
theorem witness_EqualReadsEqualMemories :
    memWf tInput = true ∧ writeByte (writeByte tInput 0x2000 1) 0x2000 0 = tInput := by decide

/-- ConfigureCreatesInstance and ConfiguredHandleIsLive. -/
theorem witness_ConfigureCreatesInstance :
    (tConf 44100 2).a1 = 2 ∧ 0 < (tConf 44100 2).a0.toInt ∧ (tConf 44100 2).slots[0]? = some Slot.reset
      ∧ Slot.reset.state = .free ∧ outcomeMap (fun t => t.status) (exec .configure (tConf 44100 2)) = some 0 := by decide

/-- The invariant at the state of V-L1. -/
theorem wit_inv_conf : (tConf 44100 2).Inv :=
  inv_of_parts _ (by decide) rfl
    (by intro sl h; cases List.mem_singleton.1 h; exact ⟨⟨rfl, by decide, fun _ => rfl⟩, .inl rfl⟩)
    (by decide) (by decide) (by decide) (by decide) (.inr (by decide))

/-- ConfigureRejects, each clause: one channel, rate -44100, and every slot LIVE. -/
theorem witness_ConfigureRejects :
    (tConf 44100 1).a1 ≠ 2 ∧ (tConf (-44100) 2).a0.toInt ≤ 0
      ∧ ({ tLive tNeutral with a0 := 1, a1 := 2 } : State).a1 = 2
      ∧ 0 < ({ tLive tNeutral with a0 := 1, a1 := 2 } : State).a0.toInt
      ∧ (∀ sl ∈ (tLive tNeutral).slots, sl.state = .live) ∧ (∃ sl ∈ (tConf 44100 2).slots, sl.state = .free) := by decide

/-- SetparamsInstallsDesign. -/
theorem witness_SetparamsInstallsDesign :
    coefFinite (design (tParams 0x3F34FDF4).plat (tParams 0x3F34FDF4).a0.toInt (tParams 0x3F34FDF4).a1
      (tParams 0x3F34FDF4).a2 (tParams 0x3F34FDF4).a3) = true ∧ (tSlot tNeutral).numFault = false := by decide +kernel

/-- SetparamsNonFiniteMarksInstance. -/
theorem witness_SetparamsNonFiniteMarksInstance :
    coefFinite (design (tParams 0).plat (tParams 0).a0.toInt (tParams 0).a1 (tParams 0).a2 (tParams 0).a3) = false := by
  decide +kernel

/-- RefDesignFeedbackNegated and RefDesignAtZeroGain (V-D1, V-D2). -/
theorem witness_RefDesigns :
    coefFinite (ref64 21 44100 0x3F800000 0x42C80000 0x3F34FDF4) = true
      ∧ coefFinite (ref64 21 44100 0 0x42C80000 0x3F34FDF4) = true
      ∧ coefFinite (ref64 21 44100 0x80000000 0x42C80000 0x3F34FDF4) = true := by decide +kernel

/-- AbsentHandleEndsUseAfterRelease: a stale generation, and a slot index out of range. -/
theorem witness_AbsentHandle : absentHandle tBase 0x0100 ∧ absentHandle tBase 0x0001 := by
  constructor
  · rintro sl ⟨-, he, -, hg⟩
    cases he
    exact absurd hg (by decide)
  · rintro sl ⟨hlt, -⟩
    exact absurd hlt (by decide)

/-- FaultedInstanceEndsNumericInstability. -/
theorem witness_FaultedInstance :
    namesLive tFaulted 0x0000 { tSlot tNeutral with numFault := true } := ⟨by decide, rfl, rfl, by decide⟩

/-- ResetZeroesBothHistories and ReleaseFreesSlot. -/
theorem witness_ResetAndRelease : namesLive tBase 0x0000 (tSlot tNeutral) ∧ (tSlot tNeutral).numFault = false :=
  ⟨wit_proc_live, rfl⟩

/-- ReleasedHandleIsAbsent: the handle 0:0 on a slot of generation 1, at a step that idles. -/
theorem witness_ReleasedHandleIsAbsent :
    generationMoved { tBase with slots := [{ tSlot tNeutral with gen := 1 }] } 0x0000 ∧
      ({ tBase with slots := [{ tSlot tNeutral with gen := 1 }] } : State).host = [] :=
  ⟨⟨{ tSlot tNeutral with gen := 1 }, rfl, by decide⟩, rfl⟩

/-- ReleasedHandleIsAbsent and ReusedSlotGetsNewHandle: a RELEASE, and the CONFIGURE after it, that end with OK. -/
theorem witness_ReleaseThenConfigure :
    outcomeMap (fun t => (t.status, outcomeMap (fun u => u.status) (exec .configure t)))
        (exec (.release 0x0000) { tBase with a0 := 44100, a1 := 2 }) = some (0, some 0) := by decide

/-- The invariant at the state of that RELEASE. -/
theorem wit_inv_release : State.Inv { tBase with a0 := 44100, a1 := 2 } :=
  inv_of_parts _ (by decide) rfl
    (by intro sl h; cases List.mem_singleton.1 h; exact ⟨slotSound_tSlot _ (by decide), .inl rfl⟩)
    (by decide) (by decide) (by decide) (by decide) (.inr (by decide))

theorem wit_views : viewsAddressable tBase ∧ rangeWellFormed tBase := by decide

/-- UnsupportedFormatEnds. -/
theorem witness_UnsupportedFormatEnds :
    (0x03 : BitVec 8) ≠ 0x02 ∧ (0x03 : BitVec 8) ≠ 0x04 ∧ viewsAddressable tBase ∧ rangeWellFormed tBase :=
  ⟨by decide, by decide, wit_views.1, wit_views.2⟩

/-- ProcessRejectsBadArguments, each clause: a null view, `pos > lim`, and one sample (V-A5, V-A2, V-A9). -/
theorem witness_ProcessRejectsBadArguments :
    ¬ viewsAddressable { tBase with a0 := 0 } ∧ ¬ rangeWellFormed { tBase with a1 := 6, a2 := 4 }
      ∧ viewsAddressable { tBase with a2 := 2 } ∧ rangeWellFormed { tBase with a2 := 2 }
      ∧ ¬ lengthFits 2 { tBase with a2 := 2 } := by decide

/-- IllegalCommandEnds: the second clause, at each end of the reserved opcodes and at each field (V-E). -/
theorem witness_IllegalCommandEnds :
    [(0x00000000 : Word), 0x00000006, 0x0000000F, 0x00000011, 0x00000101, 0x02000004].all isIllegalWord = true := by decide

/-- Pcm16FiltersBothChannels, PcmfloatFiltersBothChannels, ProcessWritesOnlyItsOutput, ChannelsAreIndependent. -/
theorem witness_ProcessAccepted : tBase.Inv ∧ processAccepted 2 tBase ∧ processAccepted 4 tBase ∧ 0 < frameCount 2 tBase :=
  ⟨wit_inv_base, by decide⟩

/-- ChannelsAreIndependent: another data space with the same left samples and other right ones. -/
theorem witness_ChannelsAreIndependent :
    memWf [(0x1000, 0xE8), (0x1001, 0x03), (0x1004, 0x18), (0x1005, 0xFC)] = true
      ∧ (∀ j, j < frameCount 2 tBase → leftIn 2 tBase j
        = leftIn 2 { tBase with mem := [(0x1000, 0xE8), (0x1001, 0x03), (0x1004, 0x18), (0x1005, 0xFC)] } j) := by
  refine ⟨by decide, ?_⟩
  intro j hj
  have h2 : frameCount 2 tBase = 2 := by decide
  rw [h2] at hj
  interval_cases j <;> decide

/-- ProcessAllOrNothing: a PROCESS that fails. -/
theorem witness_ProcessAllOrNothing :
    outcomeMap (fun t => t.status) (exec (.processPcm16 0x0000) { tBase with a2 := 2 }) = some 1 := by decide

/-- ZeroLengthProcessDoesNothing (V-A13), an output view of capacity 0 among them. -/
theorem witness_ZeroLengthProcess :
    viewsAddressable { tBase with a1 := 4, a2 := 4, a5 := 0 } ∧ rangeWellFormed { tBase with a1 := 4, a2 := 4, a5 := 0 } := by
  decide

/-- EqualChannelsStayEqual: one frame of zeros. -/
theorem witness_EqualChannels :
    processAccepted 4 (tProc tScen 8 []) ∧ (tSlot tScen).hist0 = (tSlot tScen).hist1
      ∧ leftIn 4 (tProc tScen 8 []) 0 = rightIn 4 (tProc tScen 8 []) 0 ∧ frameCount 4 (tProc tScen 8 []) = 1
      ∧ outcomeMap (fun t => isNaN32 (BitVec.ofNat 32 (leftOut 4 t.mem 0x2000 0)))
          (exec (.processPcmfloat 0x0000) (tProc tScen 8 [])) = some false := by decide +kernel

/-- OverlapChangesNothing: the output view on the input itself (V-A16), and one byte above it. -/
theorem witness_OverlapChangesNothing :
    processAccepted 2 { tBase with a4 := 0x1000, a5 := 8 } ∧ processAccepted 2 { tBase with a4 := 0x1001, a5 := 8 } := by decide

/-- FilterWithoutNanIsDeterministic, both operations. -/
theorem witness_FilterWithoutNan :
    (filterF32 0 tScen tZero [0x3F000000, 0xBF000000]).1.all (fun y => isNaN32 y == false) = true
      ∧ (filterF32 0 tScen tZero ([1000, -1000].map (normalise 0))).1.all (fun y => isNaN32 y == false) = true := by
  decide +kernel

/-- NanHistoryPersists: the least and the greatest NaN encodings, an infinite history, and an infinite input. -/
theorem witness_NanHistoryPersists :
    isNaN32 (Hist.mk 0 0 0x7F800001 0).y1 = true ∧ isNaN32 (Hist.mk 0 0xFFFFFFFF 0 0).x2 = true
      ∧ ¬ histFinite ⟨0, 0, 0, 0xFF800000⟩ ∧ isFinite32 0x7F800000 = false := by decide

/-- IntegerInputIsNearestQuotient, at both ends of the range (R135) and at 0. -/
theorem witness_IntegerInput :
    normalise 0 (-32768) = 0xBF800100 ∧ normalise 0 32767 = 0x3F800000 ∧ normalise 0 0 = 0 := by decide +kernel

/-- IntegerOutputSaturates: each clause, and the finite one at both bounds and between them. -/
theorem witness_IntegerOutputSaturates :
    isNaN32 (fmul 10 0x7FC00000 0x46FFFE00) = true ∧ fmul 10 0xFF800000 0x46FFFE00 = 0xFF800000
      ∧ fmul 10 0x7F800000 0x46FFFE00 = 0x7F800000
      ∧ sat16 0 0x3F800000 = 32767 ∧ sat16 0 0x3F9384A2 = 32767 ∧ sat16 0 0xBF800100 = -32768
      ∧ sat16 0 0xBF8BBFE3 = -32768 :=
  ⟨isNaN32_quietNaN 10, by decide +kernel⟩

/-- SilentChannelStaysSilent: one frame of zeros under the scenario coefficients; FiltersMapZerosToZeros: those,
coefficients of which only `a2 = +0.0` has its sign bit clear, and five negative ones. -/
theorem witness_SilentChannel :
    (tProc tScen 8 []).plat.designer = .reference ∧ (tSlot tScen).hist1 = ⟨0, 0, 0, 0⟩
      ∧ rightIn 4 (tProc tScen 8 []) 0 = 0 ∧ rightIn 2 (tProc tScen 8 []) 1 = 0
      ∧ coefFinite tScen = true ∧ someSignClear tScen
      ∧ someSignClear ⟨0x80000000, 0x80000000, 0xBF800000, 0xBF800000, 0⟩
      ∧ ¬ someSignClear ⟨0x80000000, 0x80000000, 0xBF800000, 0xBF800000, 0xBF800000⟩ :=
  ⟨by decide, by decide, by decide, by decide, by decide, .inl (by decide), .inr (.inr (.inr (.inr (by decide)))),
    by unfold someSignClear; decide⟩

/-- NeutralFloatFilterIsIdentity (V-F4, V-F5). -/
theorem witness_NeutralFloatFilter :
    histFinite tZero
      ∧ [(0x40000000 : F32), 0xC0600000, 0x00000001].all (fun x => isFinite32 x && x != 0x80000000) = true := by decide

/-- ArithmeticRoundsToNearestEven: finite operands with finite results; and the largest finite value plus half a unit of
its last place, where the sum overflows, or a quarter, where it does not. -/
theorem witness_ArithmeticRounds :
    isFinite32 0x3F83EC57 = true ∧ isFinite32 (fadd 0 0x3F83EC57 0x3F000000) = true
      ∧ isFinite32 (fmul 0 0x3F83EC57 0x3F000000) = true ∧ isFinite32 (fdiv 0 0x3F83EC57 0x3F000000) = true
      ∧ fadd 0 0x7F7FFFFF 0x73000000 = 0x7F800000 ∧ fadd 0 0x7F7FFFFF 0x72800000 = 0x7F7FFFFF
      ∧ fadd 0 0xFF7FFFFF 0xF3000000 = 0xFF800000 := by
  decide +kernel

/-- The conditions under which a command answers are met by every state; here one that changes a slot
(OtherSlotsUnchanged, SlotFieldsWrittenByTheirCommands, CommandsWriteOnlyTheirState, FaultBitFollowsStatus). -/
theorem witness_CommandFrames :
    outcomeMap (fun t => t.status) (exec (.setparams 0x0000) (tParams 0x3F34FDF4)) = some 0
      ∧ (Instr.setparams 0x0000).wf = true ∧ ((tParams 0x3F34FDF4).slots[0]?).isSome = true := by decide +kernel

end Sys2Proof.Machine
end

section
/-! PROOFS. The errors every handle command shares (10_state.md rule R28, 60_exceptions.md rule R223): what a command
does when the handle it names is absent. -/

namespace Sys2Proof.Machine

/-- `liveSlot` answers none exactly for an absent handle (R28). -/
theorem liveSlot_eq_none (s : State) (h : Handle) : liveSlot s h = none ↔ absentHandle s h := by
  simp only [Option.eq_none_iff_forall_ne_some, ne_eq, liveSlot_eq_some, absentHandle]

/-- The handle is what PROCESS checks first, whatever the format and the views (R160, R161). -/
theorem process_of_absent (fmt : BitVec 8) (h : Handle) (s : State) (ha : absentHandle s h) :
    process fmt h s = raise .useAfterRelease s := by
  have hl : liveSlot s h = none := (liveSlot_eq_none s h).2 ha
  have hc : processCheck fmt h s = .error .useAfterRelease := by simp only [processCheck, hl]
  simp only [process, hc]

/-- Every command that names a handle ends with USE_AFTER_RELEASE when the handle is absent (R28). -/
theorem exec_of_absent (i : Instr) (h : Handle) (s : State) (hh : handleOf i = some h) (ha : absentHandle s h) :
    exec i s = .next (raise .useAfterRelease s) := by
  have hl : liveSlot s h = none := (liveSlot_eq_none s h).2 ha
  cases i with
  | configure => cases hh
  | illegal w => cases hh
  | setparams h' =>
    cases hh
    simp only [exec, execSetparams, hl]
  | processPcm16 h' =>
    cases hh
    exact congrArg Host.Outcome.next (process_of_absent _ h s ha)
  | processPcmfloat h' =>
    cases hh
    exact congrArg Host.Outcome.next (process_of_absent _ h s ha)
  | processFmt fmt h' =>
    cases hh
    exact congrArg Host.Outcome.next (process_of_absent fmt h s ha)
  | reset h' =>
    cases hh
    simp only [exec, execReset, hl]
  | release h' =>
    cases hh
    simp only [exec, execRelease, hl]

/-- Settles O25: each of the six commands names `h`, and `raise .useAfterRelease` writes status code 4 and bit 0 of
FAULT alone (R223). -/
theorem absentHandleEndsUseAfterRelease : Obligations.AbsentHandleEndsUseAfterRelease := by
  intro s h fmt i ha hi
  have hh : handleOf i = some h := by
    simp only [List.mem_cons, List.not_mem_nil, or_false] at hi
    obtain rfl | rfl | rfl | rfl | rfl | rfl := hi <;> rfl
  exact exec_of_absent i h s hh ha

end Sys2Proof.Machine
end

section
/-! PROOFS. Which words are ILLEGAL (30_encoding.md rules R72, R75, R76): a word that no row of R72 matches is, field by
field, one that R75 and R76 reject. -/

namespace Sys2Proof

open Sys2Proof.Laws.EncodesItsRow (rows commandWord_and_fmt_op commandWord_and_op)

/-- A word is its five fields FMT, generation, slot, RSV and OP, most significant first (R71). -/
theorem word_eq_fields (w : Word) :
    w = (w.extractLsb' 24 8 ++ (w.extractLsb' 16 8 ++ w.extractLsb' 8 8 : Handle))
      ++ (w.extractLsb' 4 4 ++ w.extractLsb' 0 4) := by
  iterate 4 rw [BitVec.extractLsb'_append_extractLsb'_eq_extractLsb' (by rfl)]
  exact BitVec.extractLsb'_eq_self.symm

/-- A word with RSV = 0 is the command word of its fields. -/
theorem eq_commandWord_of_rsv_zero (w : Word) (hr : w.extractLsb' 4 4 = 0) :
    w = commandWord (w.extractLsb' 24 8) (w.extractLsb' 16 8 ++ w.extractLsb' 8 8) (w.extractLsb' 0 4) := by
  have hw := word_eq_fields w
  rw [hr] at hw
  exact hw

/-- The opcodes R76 does not reserve. -/
theorem op_of_not_reserved : ∀ op : BitVec 4, op ≠ 0 → op.toNat < 6 → op = 1 ∨ op = 2 ∨ op = 3 ∨ op = 4 ∨ op = 5 := by
  decide

/-- The words R75 and R76 leave to a command: RSV = 0, every field 0 under CONFIGURE, FMT = 0 under SETPARAMS, RESET
and RELEASE, and any FMT under PROCESS. -/
theorem fields_of_not_illegal (w : Word) (hw : isIllegalWord w = false) :
    w.extractLsb' 4 4 = 0 ∧
      ((w.extractLsb' 0 4 = 1 ∧ w.extractLsb' 8 8 = 0 ∧ w.extractLsb' 16 8 = 0 ∧ w.extractLsb' 24 8 = 0) ∨
        (w.extractLsb' 0 4 = 2 ∧ w.extractLsb' 24 8 = 0) ∨ w.extractLsb' 0 4 = 3 ∨
        (w.extractLsb' 0 4 = 4 ∧ w.extractLsb' 24 8 = 0) ∨ (w.extractLsb' 0 4 = 5 ∧ w.extractLsb' 24 8 = 0)) := by
  simp only [isIllegalWord, Bool.or_eq_false_iff, decide_eq_false_iff_not, beq_eq_false_iff_ne, bne_eq_false_iff_eq,
    Nat.not_le] at hw
  obtain ⟨⟨⟨⟨h0, h6⟩, hr⟩, h1⟩, hf⟩ := hw
  refine ⟨hr, ?_⟩
  obtain e | e | e | e | e := op_of_not_reserved _ h0 h6
  · exact .inl ⟨e, by simpa [e, and_assoc] using h1⟩
  · exact .inr (.inl ⟨e, by simpa [e] using hf⟩)
  · exact .inr (.inr (.inl e))
  · exact .inr (.inr (.inr (.inl ⟨e, by simpa [e] using hf⟩)))
  · exact .inr (.inr (.inr (.inr ⟨e, by simpa [e] using hf⟩)))

/-- Some row of R72 matches every word that R75 and R76 leave to a command. -/
theorem exists_row_of_not_illegal (w : Word) (hw : isIllegalWord w = false) : ∃ r ∈ rows, w &&& r.1 = r.2 := by
  obtain ⟨hr, hfields⟩ := fields_of_not_illegal w hw
  rw [eq_commandWord_of_rsv_zero w hr]
  obtain ⟨ho, hs, hg, hf⟩ | ⟨ho, hf⟩ | ho | ⟨ho, hf⟩ | ⟨ho, hf⟩ := hfields
  · rw [ho, hs, hg, hf]
    exact ⟨(0xFFFFFFFF, 0x00000001), by decide, by decide⟩
  · rw [ho, hf]
    exact ⟨(0xFF0000FF, 0x00000002), by decide, (commandWord_and_fmt_op 0 _ 2).trans (by decide)⟩
  · rw [ho]
    exact ⟨(0x000000FF, 0x00000003), by decide, (commandWord_and_op _ _ 3).trans (by decide)⟩
  · rw [ho, hf]
    exact ⟨(0xFF0000FF, 0x00000004), by decide, (commandWord_and_fmt_op 0 _ 4).trans (by decide)⟩
  · rw [ho, hf]
    exact ⟨(0xFF0000FF, 0x00000005), by decide, (commandWord_and_fmt_op 0 _ 5).trans (by decide)⟩

/-- The decoder answers ILLEGAL exactly when no row of R72 matches (R76). -/
theorem decode_eq_illegal_iff (w : Word) : decode w = .illegal w ↔ ∀ r ∈ rows, w &&& r.1 ≠ r.2 := by
  simp only [rows, List.forall_mem_cons, List.not_mem_nil, false_implies, implies_true, and_true]
  unfold decode
  constructor
  · intro hd
    split_ifs at hd with h1 h2 h3 h4 h5 h6 h7
    exact ⟨h1, h2, h3, h4, h5, h6, h7⟩
  · rintro ⟨h1, h2, h3, h4, h5, h6, h7⟩
    rw [if_neg h1, if_neg h2, if_neg h3, if_neg h4, if_neg h5, if_neg h6, if_neg h7]

/-- Settles O3: no row matches an illegal word, and the opcode of any other word has a row that does. -/
theorem illegalWordsExactly : Obligations.IllegalWordsExactly := by
  intro w
  rw [decode_eq_illegal_iff]
  constructor
  · intro hnone
    by_contra hw
    obtain ⟨r, hr, he⟩ := exists_row_of_not_illegal w (Bool.eq_false_of_not_eq_true hw)
    exact hnone r hr he
  · exact Laws.EncodesItsRow.illegal w

end Sys2Proof
end

section
/-! PROOFS. SETPARAMS with a finite design, on a live instance that is not faulted (41_coefficient_designer.md rules R101
and R106). -/

namespace Sys2Proof.Machine

/-- A finite design is installed, and the status is OK (R106). -/
theorem execSetparams_of_finite (h : Handle) (s : State) (sl : Slot) (hl : liveSlot s h = some sl)
    (hn : sl.numFault = false) (hf : coefFinite (designOf s) = true) :
    execSetparams h s = .next (finish (setSlot s (handleSlot h) (installed sl (designOf s)))) := by
  simp only [execSetparams, hl, hn, hf, Bool.false_eq_true, if_false, if_true]

/-- Settles O21: `designOf` reads SETPARAMS's own A0 as the rate (R101), and `installed` writes the two channels'
coefficients alone. -/
theorem setparamsInstallsDesign : Obligations.SetparamsInstallsDesign := by
  rintro s h sl c hlive hn rfl hf
  exact execSetparams_of_finite h s sl ((liveSlot_eq_some s h sl).2 hlive) hn hf

end Sys2Proof.Machine
end

section
/-! PROOFS. The rational numbers behind the arithmetic (00_scope.md rule R10): rounding to the nearest integer, the
unit a number is rounded to, and the value of an encoding. -/

namespace Sys2Proof.Machine

/-! ### Nearest integers -/

/-- `n` is an integer nearest to `y`, and an even one where two are equally near (R10). -/
def IsNearestInt (y : ℚ) (n : ℤ) : Prop := |(n : ℚ) - y| ≤ 1 / 2 ∧ (|(n : ℚ) - y| = 1 / 2 → Even n)

theorem IsNearestInt.neg {y : ℚ} {n : ℤ} (h : IsNearestInt y n) : IsNearestInt (-y) (-n) := by
  have e : |((-n : ℤ) : ℚ) - -y| = |(n : ℚ) - y| := by
    rw [← abs_neg]
    push_cast
    congr 1
    ring
  rw [IsNearestInt, e]
  exact ⟨h.1, fun ht => (h.2 ht).neg⟩

/-- Any other integer is at least as far, and `n` is even when it is equally far. -/
theorem IsNearestInt.le_dist {y : ℚ} {n : ℤ} (h : IsNearestInt y n) (k : ℤ) :
    |(n : ℚ) - y| ≤ |(k : ℚ) - y| ∧ (|(n : ℚ) - y| = |(k : ℚ) - y| → k ≠ n → Even n) := by
  obtain ⟨hle, heven⟩ := h
  by_cases hk : k = n
  · exact ⟨hk ▸ le_rfl, fun _ hne => absurd hk hne⟩
  have hone : (1 : ℚ) ≤ |(n : ℚ) - k| := by exact_mod_cast Int.one_le_abs (sub_ne_zero.2 (Ne.symm hk))
  have htri : |(n : ℚ) - k| ≤ |(n : ℚ) - y| + |(k : ℚ) - y| := by
    rw [abs_sub_comm (k : ℚ) y]
    exact abs_sub_le _ _ _
  exact ⟨by linarith, fun ht _ => heven (by linarith)⟩

/-- `divNearestEven` rounds a quotient to nearest, ties to even. -/
theorem isNearestInt_divNearestEven (num den : Nat) (hd : 0 < den) :
    IsNearestInt ((num : ℚ) / den) (divNearestEven num den) := by
  have hdq : (0 : ℚ) < den := by exact_mod_cast hd
  have hnum : (num : ℚ) = den * (num / den : ℕ) + (num % den : ℕ) := by exact_mod_cast (Nat.div_add_mod num den).symm
  have hlt : ((num % den : ℕ) : ℚ) < den := by exact_mod_cast Nat.mod_lt num hd
  have hy : (num : ℚ) / den = (num / den : ℕ) + ((num % den : ℕ) : ℚ) / den := by
    rw [div_eq_iff hdq.ne', add_mul, div_mul_cancel₀ _ hdq.ne']
    linarith
  have hr0 : (0 : ℚ) ≤ ((num % den : ℕ) : ℚ) / den := by positivity
  rw [IsNearestInt, hy]
  unfold divNearestEven
  generalize num / den = k at *
  generalize num % den = r at *
  simp only
  split_ifs with h1 h2
  · have : (r : ℚ) / den < 1 / 2 := by
      rw [div_lt_div_iff₀ hdq two_pos]
      exact_mod_cast (by omega : r * 2 < 1 * den)
    rw [Int.cast_natCast, sub_add_cancel_left, abs_neg, abs_of_nonneg hr0]
    exact ⟨this.le, fun h => absurd h this.ne⟩
  · have h3 : 1 / 2 < (r : ℚ) / den := by
      rw [div_lt_div_iff₀ two_pos hdq]
      exact_mod_cast (by omega : 1 * den < r * 2)
    have h4 : (r : ℚ) / den < 1 := (div_lt_one hdq).2 hlt
    have e : (((k + 1 : ℕ) : ℤ) : ℚ) - (k + (r : ℚ) / den) = 1 - (r : ℚ) / den := by push_cast; ring
    rw [e, abs_of_pos (by linarith)]
    exact ⟨by linarith, fun h => by linarith⟩
  · have h3 : (r : ℚ) / den = 1 / 2 := by
      rw [div_eq_div_iff hdq.ne' two_ne_zero]
      exact_mod_cast (by omega : r * 2 = 1 * den)
    have hk : k % 2 = 0 ∨ k % 2 = 1 := by omega
    have e : |(((k + k % 2 : ℕ) : ℤ) : ℚ) - (k + (r : ℚ) / den)| = 1 / 2 := by
      rw [h3]
      obtain h | h := hk <;> rw [h] <;> push_cast <;> norm_num [abs_div]
    exact ⟨e.le, fun _ => (Int.even_coe_nat _).2 (Nat.even_iff.2 (by omega))⟩

/-! ### The unit a number is rounded to -/

theorem scaleFrac_den_pos {num den : Nat} (t : Int) (hd : 0 < den) : 0 < (scaleFrac num den t).2 := by
  unfold scaleFrac
  split_ifs
  · exact hd
  · exact Nat.mul_pos hd (by positivity)

/-- `scaleFrac` multiplies by `2 ^ t`. -/
theorem scaleFrac_eq (num den : Nat) (t : Int) :
    ((scaleFrac num den t).1 : ℚ) / (scaleFrac num den t).2 = (num : ℚ) / den * 2 ^ t := by
  unfold scaleFrac
  split_ifs with h
  · lift t to ℕ using h
    push_cast
    rw [Int.toNat_natCast, zpow_natCast, div_mul_eq_mul_div]
  · obtain ⟨m, rfl⟩ : ∃ m : ℕ, t = -m := ⟨(-t).toNat, by omega⟩
    push_cast
    rw [neg_neg, Int.toNat_natCast, zpow_neg, zpow_natCast, ← div_eq_mul_inv, div_div]

theorem scaleFrac_div_lt {num den : Nat} (t : Int) (m : Nat) (hd : 0 < den) :
    (scaleFrac num den t).1 / (scaleFrac num den t).2 < m ↔ (num : ℚ) / den * 2 ^ t < m := by
  have hpos := scaleFrac_den_pos (num := num) t hd
  rw [← scaleFrac_eq, div_lt_iff₀ (by exact_mod_cast hpos), Nat.div_lt_iff_lt_mul hpos]
  exact_mod_cast Iff.rfl

/-- The difference of two logarithms is that of the quotient, up to a factor 2 either way. -/
theorem div_mul_two_zpow_log2_bounds {num den : Nat} (hn : 0 < num) (hd : 0 < den) :
    1 / 2 < (num : ℚ) / den * 2 ^ ((den.log2 : ℤ) - num.log2) ∧
      (num : ℚ) / den * 2 ^ ((den.log2 : ℤ) - num.log2) < 2 := by
  have hln : (2 : ℚ) ^ num.log2 ≤ num := by exact_mod_cast Nat.log2_self_le hn.ne'
  have hun : (num : ℚ) < 2 ^ num.log2 * 2 := by exact_mod_cast Nat.lt_log2_self (n := num)
  have hld : (2 : ℚ) ^ den.log2 ≤ den := by exact_mod_cast Nat.log2_self_le hd.ne'
  have hud : (den : ℚ) < 2 ^ den.log2 * 2 := by exact_mod_cast Nat.lt_log2_self (n := den)
  have ha : (0 : ℚ) < 2 ^ num.log2 := by positivity
  have hb : (0 : ℚ) < 2 ^ den.log2 := by positivity
  rw [zpow_sub₀ two_ne_zero, zpow_natCast, zpow_natCast, div_mul_div_comm]
  generalize (2 : ℚ) ^ num.log2 = a at *
  generalize (2 : ℚ) ^ den.log2 = b at *
  have hdq : (0 : ℚ) < den := by exact_mod_cast hd
  constructor
  · rw [div_lt_div_iff₀ two_pos (by positivity)]
    nlinarith
  · rw [div_lt_iff₀ (by positivity)]
    nlinarith

/-- The unit of `unitExp` is no smaller than the subnormals', and leaves at most `prec` bits; a larger one than the
subnormals' leaves exactly `prec`. -/
theorem unitExp_spec (F : Fmt) {num den : Nat} (exp : Int) (hn : 0 < num) (hd : 0 < den) :
    fmtEmin F ≤ unitExp F num den exp ∧
      (num : ℚ) / den * 2 ^ (exp - unitExp F num den exp) < 2 ^ F.prec ∧
      (fmtEmin F < unitExp F num den exp →
        2 ^ F.prec ≤ (num : ℚ) / den * 2 ^ (exp - unitExp F num den exp) * 2) := by
  obtain ⟨hlo, hhi⟩ := div_mul_two_zpow_log2_bounds hn hd
  have hp : (0 : ℚ) < 2 ^ F.prec := by positivity
  have hscale (t j : ℤ) : (num : ℚ) / den * 2 ^ (t + j) = (num : ℚ) / den * 2 ^ t * 2 ^ j := by
    rw [mul_assoc, zpow_add₀ two_ne_zero]
  obtain ⟨q, hq, hlt, hge⟩ : ∃ q, (unitExp F num den exp = if q < fmtEmin F then fmtEmin F else q) ∧
      (num : ℚ) / den * 2 ^ (exp - q) < 2 ^ F.prec ∧ 2 ^ F.prec ≤ (num : ℚ) / den * 2 ^ (exp - q) * 2 := by
    refine ⟨_, rfl, ?_⟩
    generalize hq0 : (num.log2 : ℤ) - den.log2 + exp - F.prec = q0
    have he : exp - q0 = den.log2 - num.log2 + F.prec := by omega
    have hv : (num : ℚ) / den * 2 ^ (exp - q0) = num / den * 2 ^ ((den.log2 : ℤ) - num.log2) * 2 ^ F.prec := by
      rw [he, hscale, zpow_natCast]
    have hc := scaleFrac_div_lt (num := num) (exp - q0) (2 ^ F.prec) hd
    push_cast at hc
    split_ifs with h
    · exact ⟨hc.1 h, by rw [hv]; nlinarith⟩
    · rw [hc, not_lt] at h
      rw [show exp - (q0 + 1) = exp - q0 + -1 by ring, hscale]
      norm_num
      rw [hv] at *
      exact ⟨by nlinarith, by linarith⟩
  rw [hq]
  split_ifs with h
  · refine ⟨le_rfl, ?_, fun h => absurd h (lt_irrefl _)⟩
    have hmono : (2 : ℚ) ^ (exp - fmtEmin F) ≤ 2 ^ (exp - q) := zpow_le_zpow_right₀ one_le_two (by omega)
    exact lt_of_le_of_lt (by gcongr) hlt
  · exact ⟨not_lt.1 h, hlt, fun _ => hge⟩

/-! ### The rational value of an encoding -/

/-- The rational number a finite `FpVal` stands for; 0 for the others. -/
def fpRat : FpVal → ℚ
  | .nan => 0
  | .inf _ => 0
  | .rat n a c e => (if n then -1 else 1) * ((a : ℚ) / c * 2 ^ e)

/-- A magnitude below the least normal one is a subnormal or zero. -/
theorem unpack_of_subnormal (n : Bool) {m : Nat} (h : m < 2 ^ 23) : unpack binary32 n m = .rat n m 1 (-149) := by
  unfold unpack
  rw [show m / 2 ^ (binary32.prec - 1) = 0 from Nat.div_eq_of_lt h,
    show m % 2 ^ (binary32.prec - 1) = m from Nat.mod_eq_of_lt h]
  rfl

/-- A finite magnitude with exponent field `e` and fraction `f` has the hidden one in its significand. -/
theorem unpack_of_normal (n : Bool) {e f : Nat} (h0 : 0 < e) (h1 : e < 255) (hf : f < 2 ^ 23) :
    unpack binary32 n (e * 2 ^ 23 + f) = .rat n (2 ^ 23 + f) 1 ((e : ℤ) - 150) := by
  have hd : (e * 2 ^ 23 + f) / 2 ^ (binary32.prec - 1) = e := by
    change (e * 2 ^ 23 + f) / 2 ^ 23 = e
    omega
  have hm : (e * 2 ^ 23 + f) % 2 ^ (binary32.prec - 1) = f := by
    change (e * 2 ^ 23 + f) % 2 ^ 23 = f
    omega
  have he : ¬ e = 2 ^ binary32.expBits - 1 := by
    change ¬ e = 255
    omega
  have hq : fmtEmin binary32 + (e : ℤ) - 1 = (e : ℤ) - 150 := by
    change (-149 : ℤ) + e - 1 = e - 150
    ring
  unfold unpack
  simp only [hd, hm, if_neg he, if_neg h0.ne', hq]
  rfl

theorem normal_of_finite {m : Nat} (h : m < fmtInf binary32) (h23 : ¬ m < 2 ^ 23) :
    ∃ e f, m = e * 2 ^ 23 + f ∧ 0 < e ∧ e < 255 ∧ f < 2 ^ 23 := by
  rw [fmtInf_binary32] at h
  exact ⟨m / 2 ^ 23, m % 2 ^ 23, by omega, by omega, by omega, by omega⟩

/-- The value of a finite encoding has a significand of at most 24 bits and an exponent not below the subnormals'. -/
theorem val32_of_finite {b : F32} (h : isFinite32 b = true) :
    ∃ a e, val32 b = .rat b.msb a 1 e ∧ a < 2 ^ 24 ∧ -149 ≤ e := by
  unfold val32
  have hm : b.toNat % 2 ^ 31 < fmtInf binary32 := of_decide_eq_true h
  generalize b.toNat % 2 ^ 31 = m at hm
  by_cases h23 : m < 2 ^ 23
  · exact ⟨m, -149, unpack_of_subnormal _ h23, by omega, le_rfl⟩
  · obtain ⟨e, f, rfl, h0, h1, hf⟩ := normal_of_finite hm h23
    exact ⟨_, _, unpack_of_normal _ h0 h1 hf, by omega, by omega⟩

/-- The model reads a finite encoding as IEEE 754's definition of the format does (R10). -/
theorem fpRat_val32 {b : F32} (h : isFinite32 b = true) : fpRat (val32 b) = rat32 b := by
  have hb := b.isLt
  have hm : b.toNat % 2 ^ 31 < fmtInf binary32 := of_decide_eq_true h
  have he : b.toNat / 2 ^ 23 % 256 = b.toNat % 2 ^ 31 / 2 ^ 23 := by omega
  have hf : b.toNat % 2 ^ 23 = b.toNat % 2 ^ 31 % 2 ^ 23 := by omega
  have hsign : (if b.msb = true then (-1 : ℚ) else 1) = if b.toNat < 2 ^ 31 then 1 else -1 := by
    simp only [BitVec.msb_eq_decide, decide_eq_true_eq, ← Nat.not_lt, ite_not]
  simp only [rat32, he, hf, ← hsign]
  unfold val32
  generalize b.toNat % 2 ^ 31 = m at hm
  by_cases h23 : m < 2 ^ 23
  · rw [unpack_of_subnormal _ h23, Nat.div_eq_of_lt h23, Nat.mod_eq_of_lt h23, if_pos rfl, fpRat, Nat.cast_one,
      div_one]
  · obtain ⟨e, f, rfl, h0, h1, hf⟩ := normal_of_finite hm h23
    rw [unpack_of_normal _ h0 h1 hf, show (e * 2 ^ 23 + f) / 2 ^ 23 = e by omega,
      show (e * 2 ^ 23 + f) % 2 ^ 23 = f by omega, if_neg h0.ne', fpRat, Nat.cast_one, div_one]

theorem val32_pack32 (n : Bool) {m : Nat} (h : m < 2 ^ 31) : val32 (pack32 n m) = unpack binary32 n m := by
  have hmsb : (pack32 n m).msb = n := by
    rw [BitVec.msb_eq_decide, pack32, BitVec.toNat_ofNat]
    cases n <;> simp <;> omega
  rw [val32, hmsb, toNat_pack32 n m h]

/-- The encoding `j * 2 ^ 23 + k` stands for `k` units of `2 ^ (j - 149)`, if `k` has 24 bits or `j` is 0, and for
`k = 2 ^ 24` too, where it carries into the exponent. -/
theorem fpRat_unpack (n : Bool) {j k : Nat} (hk : k ≤ 2 ^ 24) (hj : j = 0 ∨ 2 ^ 23 ≤ k)
    (h : j * 2 ^ 23 + k < fmtInf binary32) :
    fpRat (unpack binary32 n (j * 2 ^ 23 + k)) = (if n then -1 else 1) * (k * 2 ^ ((j : ℤ) - 149)) := by
  rw [fmtInf_binary32] at h
  obtain hsub | hnorm | hcarry : k < 2 ^ 23 ∨ (2 ^ 23 ≤ k ∧ k < 2 ^ 24) ∨ k = 2 ^ 24 := by omega
  · obtain rfl : j = 0 := by omega
    rw [Nat.zero_mul, Nat.zero_add, unpack_of_subnormal n hsub, fpRat, Nat.cast_one, div_one, Nat.cast_zero, zero_sub]
  · rw [show j * 2 ^ 23 + k = (j + 1) * 2 ^ 23 + (k - 2 ^ 23) by omega,
      unpack_of_normal n (by omega) (by omega) (by omega), fpRat, Nat.cast_one, div_one,
      show 2 ^ 23 + (k - 2 ^ 23) = k by omega, show ((j + 1 : ℕ) : ℤ) - 150 = j - 149 by omega]
  · rw [hcarry, show j * 2 ^ 23 + 2 ^ 24 = (j + 2) * 2 ^ 23 + 0 by omega,
      unpack_of_normal n (by omega) (by omega) (by omega), fpRat, Nat.cast_one, div_one,
      show ((j + 2 : ℕ) : ℤ) - 150 = (j - 149) + 1 by omega, zpow_add_one₀ two_ne_zero]
    push_cast
    ring

end Sys2Proof.Machine
end

section
/-! PROOFS. One rounding to binary32 (00_scope.md rule R10): below the overflow bound, `round32` gives the nearest of
the finite binary32 values, and the even one where two are equally near. -/

namespace Sys2Proof.Machine

/-- `y` is a significand of at most 24 bits times a power of 2 not below the subnormals' unit: the form of every
finite binary32 value. -/
def IsF32Value (y : ℚ) : Prop := ∃ m e : ℤ, |m| < 2 ^ 24 ∧ -149 ≤ e ∧ y = m * 2 ^ e

theorem isF32Value_rat32 {b : F32} (h : isFinite32 b = true) : IsF32Value (rat32 b) := by
  obtain ⟨a, e, hv, ha, he⟩ := val32_of_finite h
  rw [← fpRat_val32 h, hv, fpRat, Nat.cast_one, div_one]
  refine ⟨(if b.msb then -1 else 1) * a, e, ?_, he, ?_⟩
  · split_ifs
    · rw [abs_mul, abs_neg, abs_one, one_mul, Nat.abs_cast]
      exact_mod_cast ha
    · rw [one_mul, Nat.abs_cast]
      exact_mod_cast ha
  · push_cast
    ring

/-- A value of 24 bits whose unit is below 1 is less than `2 ^ 23`. -/
theorem abs_mul_zpow_lt {m e : ℤ} (hm : |m| < 2 ^ 24) (he : e < 0) : |(m : ℚ) * 2 ^ e| < 2 ^ 23 := by
  have hm' : |(m : ℚ)| < 2 ^ 24 := by exact_mod_cast hm
  have hle : (2 : ℚ) ^ e ≤ 2 ^ (-1 : ℤ) := zpow_le_zpow_right₀ one_le_two (by omega)
  have hpos : (0 : ℚ) < 2 ^ e := by positivity
  rw [abs_mul, abs_of_pos hpos]
  norm_num at hle
  nlinarith [abs_nonneg (m : ℚ)]

/-- Numbers below `2 ^ 23` are farther from a `t` beyond it than the nearest integer is. -/
theorem IsNearestInt.lt_dist {t s : ℚ} {k : ℤ} (h : IsNearestInt t k) (ht : 2 ^ 23 ≤ |t|) (hs : |s| < 2 ^ 23) :
    |(k : ℚ) - t| < |s - t| := by
  obtain ⟨hs1, hs2⟩ := abs_lt.1 hs
  by_cases h0 : 0 ≤ t
  · rw [abs_of_nonneg h0] at ht
    calc |(k : ℚ) - t| ≤ |((2 ^ 23 : ℤ) : ℚ) - t| := (h.le_dist (2 ^ 23)).1
      _ = t - 2 ^ 23 := by
        rw [abs_sub_comm]
        push_cast
        exact abs_of_nonneg (by linarith)
      _ < t - s := by linarith
      _ ≤ |s - t| := by
        rw [abs_sub_comm]
        exact le_abs_self _
  · rw [abs_of_neg (not_le.1 h0)] at ht
    calc |(k : ℚ) - t| ≤ |((-2 ^ 23 : ℤ) : ℚ) - t| := (h.le_dist (-2 ^ 23)).1
      _ = -2 ^ 23 - t := by
        push_cast
        exact abs_of_nonneg (by linarith)
      _ < s - t := by linarith
      _ ≤ |s - t| := le_abs_self _

/-- In the unit `2 ^ q` that leaves 24 bits of `x`, or the subnormals' unit, the nearest integer gives a nearest one
of the finite binary32 values. -/
theorem IsNearestInt.le_dist_value {x y : ℚ} {k q : ℤ} (h : IsNearestInt (x / 2 ^ q) k)
    (hq : -149 < q → 2 ^ 23 ≤ |x / 2 ^ q|) (hy : IsF32Value y) :
    |(k : ℚ) * 2 ^ q - x| ≤ |y - x| ∧ (|(k : ℚ) * 2 ^ q - x| = |y - x| → y ≠ k * 2 ^ q → Even k) := by
  obtain ⟨m, e, hm, he, rfl⟩ := hy
  have hu : (0 : ℚ) < 2 ^ q := by positivity
  have hdist (s : ℚ) : |s * 2 ^ q - x| = |s - x / 2 ^ q| * 2 ^ q := by
    conv_rhs => rw [← abs_of_pos hu, ← abs_mul, abs_of_pos hu, sub_mul, div_mul_cancel₀ _ hu.ne']
  have hunit : (m : ℚ) * 2 ^ e = m * 2 ^ (e - q) * 2 ^ q := by
    rw [mul_assoc, ← zpow_add₀ two_ne_zero, sub_add_cancel]
  rw [hunit, hdist, hdist, mul_le_mul_iff_left₀ hu, mul_left_inj' hu.ne', ne_eq, mul_left_inj' hu.ne']
  by_cases hqe : q ≤ e
  · obtain ⟨i, hi⟩ : ∃ i : ℕ, e - q = i := ⟨(e - q).toNat, by omega⟩
    have hint : (m : ℚ) * 2 ^ (e - q) = ((m * 2 ^ i : ℤ) : ℚ) := by
      rw [hi, zpow_natCast]
      push_cast
      rfl
    rw [hint, Int.cast_inj]
    exact h.le_dist _
  · have hlt := h.lt_dist (hq (by omega)) (abs_mul_zpow_lt (m := m) (e := e - q) hm (by omega))
    exact ⟨hlt.le, fun ht => absurd ht hlt.ne⟩

theorem IsNearestInt.le_natCast {t : ℚ} {k N : ℕ} (h : IsNearestInt t k) (ht : t ≤ N) : k ≤ N := by
  have h1 := (abs_le.1 h.1).2
  rw [Int.cast_natCast] at h1
  by_contra hk
  have : (N : ℚ) + 1 ≤ k := by exact_mod_cast not_le.1 hk
  linarith

theorem IsNearestInt.natCast_le {t : ℚ} {k N : ℕ} (h : IsNearestInt t k) (ht : N ≤ t) : N ≤ k := by
  have h1 := (abs_le.1 h.1).1
  rw [Int.cast_natCast] at h1
  by_contra hk
  have : (k : ℚ) + 1 ≤ N := by exact_mod_cast not_le.1 hk
  linarith

/-- Below the overflow bound the nearest integer, in units of `2 ^ (j - 149)`, has a finite encoding. -/
theorem encoding_lt_fmtInf {x : ℚ} {j k : Nat} (hov : x < overflow32)
    (hnear : IsNearestInt (x / 2 ^ ((j : ℤ) - 149)) k) (hk : k ≤ 2 ^ 24)
    (hj : 0 < j → 2 ^ 23 ≤ x / 2 ^ ((j : ℤ) - 149)) : j * 2 ^ 23 + k < fmtInf binary32 := by
  rw [fmtInf_binary32]
  obtain hlow | rfl | hhigh : j ≤ 252 ∨ j = 253 ∨ 254 ≤ j := by omega
  · omega
  · have hkt := (abs_le.1 hnear.1).2
    have ht : x / 2 ^ (((253 : ℕ) : ℤ) - 149) < 2 ^ 24 - 1 / 2 := by
      rw [div_lt_iff₀ (by positivity)]
      refine hov.trans_le (le_of_eq ?_)
      norm_num [overflow32]
    have hlt : (k : ℚ) < (2 ^ 24 : ℕ) := by
      rw [Int.cast_natCast] at hkt
      push_cast
      linarith
    have : k < 2 ^ 24 := by exact_mod_cast hlt
    omega
  · exfalso
    have ht := hj (by omega)
    rw [le_div_iff₀ (by positivity)] at ht
    have hmono : (2 : ℚ) ^ (105 : ℤ) ≤ 2 ^ ((j : ℤ) - 149) := zpow_le_zpow_right₀ one_le_two (by omega)
    norm_num [overflow32] at hov hmono
    linarith

/-- Below the overflow bound, `roundMag` encodes the integer nearest to the value in units of `2 ^ (j - 149)`. -/
theorem roundMag_spec {a c : Nat} {e : Int} (hc : 0 < c) (hov : (a : ℚ) / c * 2 ^ e < overflow32) :
    ∃ j k : Nat, roundMag binary32 a c e = j * 2 ^ 23 + k ∧ j * 2 ^ 23 + k < fmtInf binary32 ∧ k ≤ 2 ^ 24 ∧
      (0 < j → 2 ^ 23 ≤ k) ∧ IsNearestInt ((a : ℚ) / c * 2 ^ e / 2 ^ ((j : ℤ) - 149)) k ∧
      (0 < j → 2 ^ 23 ≤ (a : ℚ) / c * 2 ^ e / 2 ^ ((j : ℤ) - 149)) := by
  by_cases ha : a = 0
  · subst ha
    refine ⟨0, 0, rfl, by decide, by decide, fun h => absurd h (lt_irrefl _), ?_, fun h => absurd h (lt_irrefl _)⟩
    norm_num [IsNearestInt]
  obtain ⟨hq, hlt, hge⟩ := unitExp_spec binary32 e (Nat.pos_of_ne_zero ha) hc
  change -149 ≤ _ at hq
  change _ < (2 : ℚ) ^ 24 at hlt
  change -149 < _ → (2 : ℚ) ^ 24 ≤ _ at hge
  obtain ⟨j, hj⟩ : ∃ j : ℕ, unitExp binary32 a c e = j - 149 := ⟨(unitExp binary32 a c e + 149).toNat, by omega⟩
  have hnear := isNearestInt_divNearestEven (scaleFrac a c (e - unitExp binary32 a c e)).1
    (scaleFrac a c (e - unitExp binary32 a c e)).2 (scaleFrac_den_pos _ hc)
  have hscale : (a : ℚ) / c * 2 ^ (e - unitExp binary32 a c e) = a / c * 2 ^ e / 2 ^ ((j : ℤ) - 149) := by
    rw [hj, zpow_sub₀ two_ne_zero, mul_div_assoc]
  rw [scaleFrac_eq, hscale] at hnear
  rw [hscale] at hlt hge
  have hge' : 0 < j → 2 ^ 23 ≤ (a : ℚ) / c * 2 ^ e / 2 ^ ((j : ℤ) - 149) := fun h => by
    have := hge (by omega)
    linarith
  have hk := hnear.le_natCast (N := 2 ^ 24) (by exact_mod_cast hlt.le)
  have hfin := encoding_lt_fmtInf hov hnear hk hge'
  refine ⟨j, _, ?_, hfin, hk, fun h => hnear.natCast_le (by exact_mod_cast hge' h), hnear, hge'⟩
  simp only [roundMag, if_neg ha]
  have hfield : (unitExp binary32 a c e - fmtEmin binary32).toNat = j := by
    rw [hj]
    change ((j : ℤ) - 149 - (-149)).toNat = j
    omega
  rw [hfield]
  exact min_eq_right hfin.le

/-- The least significant bit of an encoding is that of its magnitude. -/
theorem getLsbD_zero_pack32 (n : Bool) {m : Nat} (h : Even m) : (pack32 n m).getLsbD 0 = false := by
  rw [BitVec.getLsbD, Nat.testBit_zero, pack32, BitVec.toNat_ofNat, decide_eq_false_iff_not]
  obtain ⟨i, rfl⟩ := h
  cases n <;> simp <;> omega

/-- Below the overflow bound the rounded value is finite: the integer nearest to the exact value, in a unit that
leaves it 24 bits, or in the subnormals'. -/
theorem round32_rat_spec (d : Nat) (n : Bool) {a c : Nat} {e : Int} (hc : 0 < c)
    (hov : |fpRat (.rat n a c e)| < overflow32) :
    isFinite32 (round32 d (.rat n a c e)) = true ∧
      ∃ k q : ℤ, rat32 (round32 d (.rat n a c e)) = k * 2 ^ q ∧ IsNearestInt (fpRat (.rat n a c e) / 2 ^ q) k ∧
        (-149 < q → 2 ^ 23 ≤ |fpRat (.rat n a c e) / 2 ^ q|) ∧
        (Even k → (round32 d (.rat n a c e)).getLsbD 0 = false) := by
  have hx : (0 : ℚ) ≤ a / c * 2 ^ e := by positivity
  have habs : |fpRat (.rat n a c e)| = a / c * 2 ^ e := by
    rw [fpRat, abs_mul, abs_of_nonneg hx]
    cases n <;> simp
  rw [habs] at hov
  obtain ⟨j, k, hmag, hlt, hk, hjk, hnear, hge⟩ := roundMag_spec hc hov
  have hlt31 : j * 2 ^ 23 + k < 2 ^ 31 := by
    rw [fmtInf_binary32] at hlt
    omega
  have hfin : isFinite32 (pack32 n (j * 2 ^ 23 + k)) = true := by
    rw [isFinite32, toNat_pack32 n _ hlt31]
    exact decide_eq_true hlt
  rw [round32, hmag]
  refine ⟨hfin, (if n then -1 else 1) * k, j - 149, ?_, ?_, ?_, ?_⟩
  · rw [← fpRat_val32 hfin, val32_pack32 n hlt31, fpRat_unpack n hk (by omega) hlt]
    push_cast
    ring
  · rw [fpRat]
    cases n
    · simpa using hnear
    · simpa [neg_div] using hnear.neg
  · rw [abs_div, habs, abs_of_pos (by positivity : (0 : ℚ) < 2 ^ ((j : ℤ) - 149))]
    exact fun h => hge (by omega)
  · intro h
    have hkeven : Even k := by
      cases n
      · simpa using h
      · simpa using h
    exact getLsbD_zero_pack32 n ((by decide : Even (2 ^ 23)).mul_left j |>.add hkeven)

/-- One rounding gives a nearest binary32 value, the even one where two are equally near (R10). -/
theorem round32_rat_nearest (d : Nat) (n : Bool) {a c : Nat} {e : Int} (hc : 0 < c)
    (hov : |fpRat (.rat n a c e)| < overflow32) :
    isFinite32 (round32 d (.rat n a c e)) = true ∧
      nearestEven32 (fpRat (.rat n a c e)) (round32 d (.rat n a c e)) := by
  obtain ⟨hfin, k, q, hk, hnear, hq, heven⟩ := round32_rat_spec d n hc hov
  refine ⟨hfin, fun b hb => ?_⟩
  obtain ⟨hle, htie⟩ := hnear.le_dist_value hq (isF32Value_rat32 hb)
  rw [hk]
  exact ⟨hle, fun h hne => heven (htie h hne)⟩

/-- Rounding a binary32 value changes nothing. -/
theorem rat32_round32_of_isF32Value (d : Nat) (n : Bool) {a c : Nat} {e : Int} (hc : 0 < c)
    (hov : |fpRat (.rat n a c e)| < overflow32) (hv : IsF32Value (fpRat (.rat n a c e))) :
    rat32 (round32 d (.rat n a c e)) = fpRat (.rat n a c e) := by
  obtain ⟨-, k, q, hk, hnear, hq, -⟩ := round32_rat_spec d n hc hov
  have hle := (hnear.le_dist_value hq hv).1
  rw [sub_self, abs_zero] at hle
  rw [hk]
  exact sub_eq_zero.1 (abs_nonpos_iff.1 hle)

end Sys2Proof.Machine
end

section
/-! PROOFS. The integer input conversion (42_biquad.md rule R137): `i2f` is exact on an int16, and the quotient is
rounded once. -/

namespace Sys2Proof.Machine

/-- `numOfInt` is exact. -/
theorem fpRat_numOfInt (k : Int) : fpRat (numOfInt k) = k := by
  rw [numOfInt, fpRat, zpow_zero, Nat.cast_one, div_one, mul_one, Nat.cast_natAbs, Int.cast_abs]
  by_cases h : k < 0
  · rw [abs_of_neg (by exact_mod_cast h)]
    simp [h]
  · rw [abs_of_nonneg (by exact_mod_cast not_lt.1 h)]
    simp [h]

/-- `numDiv` is the exact quotient. -/
theorem fpRat_numDiv (n m : Bool) (a d b c : Nat) (e f : Int) (hb : b ≠ 0) :
    fpRat (numDiv (.rat n a d e) (.rat m b c f)) = fpRat (.rat n a d e) / fpRat (.rat m b c f) := by
  rw [numDiv, if_neg hb]
  simp only [fpRat]
  push_cast
  rw [zpow_sub₀ two_ne_zero]
  cases n <;> cases m <;> simp <;> field_simp

/-- The quotient of two finite values is rounded once, to nearest even (R10). -/
theorem fdiv_nearest (d : Nat) {a b : F32} (ha : isFinite32 a = true) (hb : isFinite32 b = true) (h0 : rat32 b ≠ 0)
    (hov : |rat32 a / rat32 b| < overflow32) :
    isFinite32 (fdiv d a b) = true ∧ nearestEven32 (rat32 a / rat32 b) (fdiv d a b) := by
  obtain ⟨na, ea, hva, -, -⟩ := val32_of_finite ha
  obtain ⟨nb, eb, hvb, -, -⟩ := val32_of_finite hb
  have hnb : nb ≠ 0 := by
    rintro rfl
    rw [← fpRat_val32 hb, hvb] at h0
    simp [fpRat] at h0
  have hval := fpRat_numDiv a.msb b.msb na 1 nb 1 ea eb hnb
  rw [← hva, ← hvb, fpRat_val32 ha, fpRat_val32 hb] at hval
  rw [← hval] at hov ⊢
  unfold fdiv
  rw [hva, hvb, numDiv, if_neg hnb] at hov ⊢
  exact round32_rat_nearest d _ (by omega) hov

theorem val32_int16Ceil : val32 int16Ceil = .rat false (2 ^ 9 * 32767) 1 (-9) := by decide

theorem val32_int16MinF : val32 int16MinF = .rat true (2 ^ 23) 1 (-8) := by decide

theorem rat32_int16Ceil : rat32 int16Ceil = 32767 := by
  rw [← fpRat_val32 (by decide), val32_int16Ceil]
  norm_num [fpRat]

theorem rat32_int16MinF : rat32 int16MinF = -32768 := by
  rw [← fpRat_val32 (by decide), val32_int16MinF]
  norm_num [fpRat]

/-- `i2f` is exact on integers of at most 24 bits (R10). -/
theorem i2f_exact {k : Int} (hk : |k| < 2 ^ 24) : isFinite32 (i2f k) = true ∧ rat32 (i2f k) = k := by
  have hval := fpRat_numOfInt k
  have hkq : |(k : ℚ)| < 2 ^ 24 := by exact_mod_cast hk
  have hov : |fpRat (numOfInt k)| < overflow32 := by
    rw [hval]
    norm_num [overflow32] at hkq ⊢
    linarith
  refine ⟨(round32_rat_nearest 0 _ one_pos hov).1, ?_⟩
  refine (rat32_round32_of_isF32Value 0 _ one_pos hov ⟨k, 0, hk, by norm_num, ?_⟩).trans hval
  rw [zpow_zero, mul_one]
  exact hval

/-- Settles O50: `k` and 32767 are binary32 values, their quotient is far below the overflow bound, and `fdiv` rounds
it once to nearest even. -/
theorem integerInputIsNearestQuotient : Obligations.IntegerInputIsNearestQuotient := by
  intro d k hlo hhi
  have hk : |k| ≤ 32768 := abs_le.2 ⟨hlo, by omega⟩
  obtain ⟨hfin, hexact⟩ := i2f_exact (k := k) (by omega)
  have hov : |rat32 (i2f k) / rat32 int16Ceil| < overflow32 := by
    have hkq : |(k : ℚ)| ≤ 32768 := by exact_mod_cast hk
    rw [hexact, rat32_int16Ceil, abs_div, div_lt_iff₀ (by norm_num)]
    norm_num [overflow32]
    linarith
  refine ⟨hexact, ?_, ?_⟩
  · have h := (fdiv_nearest (d + 9) hfin (by decide) (by norm_num [rat32_int16Ceil]) hov).2
    rwa [hexact, rat32_int16Ceil] at h
  · rintro rfl
    rfl

end Sys2Proof.Machine
end

section
/-! PROOFS. The integer output conversion SAT16 (42_biquad.md rules R138 and R139), through the model's order and
truncation as those of the rational values. -/

namespace Sys2Proof.Machine

/-- A number as an integer multiple of a unit that is shared with a number of denominator `c` and of an exponent not
below `g`: the form `numLt` compares. -/
theorem fpRat_eq_mul_unit (n : Bool) {a d c : Nat} {e g : Int} (hd : 0 < d) (hc : 0 < c) (hg : g ≤ e) :
    fpRat (.rat n a d e) =
      ((if n then -((a * c * 2 ^ (e - g).toNat : ℕ) : ℤ) else (a * c * 2 ^ (e - g).toNat : ℕ) : ℤ) : ℚ)
        * (2 ^ g / (d * c)) := by
  have hdq : (d : ℚ) ≠ 0 := by exact_mod_cast hd.ne'
  have hcq : (c : ℚ) ≠ 0 := by exact_mod_cast hc.ne'
  have hunit : (2 : ℚ) ^ e = 2 ^ (e - g).toNat * 2 ^ g := by
    rw [← zpow_natCast, Int.toNat_of_nonneg (by omega), ← zpow_add₀ two_ne_zero, sub_add_cancel]
  rw [fpRat, hunit]
  cases n <;> simp <;> field_simp

/-- `numLt` is the order of the rational values (R10). -/
theorem numLt_rat (n m : Bool) {a d b c : Nat} (e f : Int) (hd : 0 < d) (hc : 0 < c) :
    numLt (.rat n a d e) (.rat m b c f) = decide (fpRat (.rat n a d e) < fpRat (.rat m b c f)) := by
  have hpos : (0 : ℚ) < 2 ^ min e f / (d * c) := by positivity
  rw [numLt, decide_eq_decide, fpRat_eq_mul_unit n hd hc (min_le_left e f),
    fpRat_eq_mul_unit m hc hd (min_le_right e f), mul_comm (c : ℚ), mul_lt_mul_iff_left₀ hpos, Int.cast_lt]

/-- Rounding the magnitude down rounds the signed number toward zero. -/
theorem signed_floor_eq_trunc (n : Bool) {x : ℚ} (hx : 0 ≤ x) :
    (if n then -⌊x⌋ else ⌊x⌋) =
      if 0 ≤ (if n then -1 else 1) * x then ⌊(if n then -1 else 1) * x⌋ else ⌈(if n then -1 else 1) * x⌉ := by
  cases n
  · simp [hx]
  · obtain rfl | h := hx.eq_or_lt
    · simp
    · simp [h, Int.ceil_neg]

/-- `numTrunc` rounds the rational value toward zero (R10). -/
theorem numTrunc_rat (n : Bool) (a d : Nat) (e : Int) :
    numTrunc (.rat n a d e) =
      if 0 ≤ fpRat (.rat n a d e) then ⌊fpRat (.rat n a d e)⌋ else ⌈fpRat (.rat n a d e)⌉ := by
  have hfloor : (((scaleFrac a d e).1 / (scaleFrac a d e).2 : ℕ) : ℤ) = ⌊(a : ℚ) / d * 2 ^ e⌋ := by
    rw [← scaleFrac_eq, Rat.floor_natCast_div_natCast]
    rfl
  simp only [numTrunc, hfloor]
  exact signed_floor_eq_trunc n (by positivity)

/-- Every encoding is a NaN, an infinity or finite (R10). -/
theorem nan_or_inf_or_finite (v : F32) :
    isNaN32 v = true ∨ v = 0xFF800000 ∨ v = 0x7F800000 ∨ isFinite32 v = true := by
  have hv := v.isLt
  rw [isNaN32, isFinite32, decide_eq_true_iff, decide_eq_true_iff, fmtInf_binary32, ← BitVec.toNat_inj,
    ← BitVec.toNat_inj]
  change _ ∨ v.toNat = 0xFF800000 ∨ v.toNat = 0x7F800000 ∨ _
  omega

/-! ### SAT16 (R138) -/

/-- A NaN `v` gives the draw (R139). -/
theorem sat16_of_nan {d : Nat} {y : F32} (h : isNaN32 (fmul (d + 10) y int16Ceil) = true) :
    sat16 d y = (Config.nanInt16 (d + 11)).toInt := by
  rw [sat16, if_pos ((val32_eq_nan _).2 h)]

theorem sat16_of_negInf {d : Nat} {y : F32} (h : fmul (d + 10) y int16Ceil = 0xFF800000) : sat16 d y = -32768 := by
  rw [sat16, h]
  rfl

theorem sat16_of_posInf {d : Nat} {y : F32} (h : fmul (d + 10) y int16Ceil = 0x7F800000) : sat16 d y = 32767 := by
  rw [sat16, h]
  rfl

/-- A finite `v` is clamped and truncated toward zero. -/
theorem sat16_of_finite {d : Nat} {y v : F32} (hv : fmul (d + 10) y int16Ceil = v) (h : isFinite32 v = true) :
    sat16 d y =
      if rat32 v < -32768 then -32768
      else if 32767 < rat32 v then 32767
      else if 0 ≤ rat32 v then ⌊rat32 v⌋ else ⌈rat32 v⌉ := by
  obtain ⟨a, e, hval, -, -⟩ := val32_of_finite h
  have hr := fpRat_val32 h
  have hlo : numLt (val32 v) (val32 int16MinF) = decide (rat32 v < -32768) := by
    rw [← rat32_int16MinF, ← hr, ← fpRat_val32 (b := int16MinF) (by decide), hval, val32_int16MinF,
      numLt_rat _ _ _ _ one_pos one_pos]
  have hhi : numLt (val32 int16Ceil) (val32 v) = decide (32767 < rat32 v) := by
    rw [← rat32_int16Ceil, ← hr, ← fpRat_val32 (b := int16Ceil) (by decide), hval, val32_int16Ceil,
      numLt_rat _ _ _ _ one_pos one_pos]
  have htrunc : numTrunc (val32 v) = if 0 ≤ rat32 v then ⌊rat32 v⌋ else ⌈rat32 v⌉ := by
    rw [← hr, hval, numTrunc_rat]
  have hnan : val32 v ≠ .nan := by
    rw [hval]
    exact nofun
  simp only [sat16, hv, if_neg hnan, hlo, hhi, htrunc, decide_eq_true_eq]
  rfl

/-- Truncation toward zero stays between integer bounds of either sign. -/
theorem trunc_mem_int16 {x : ℚ} (hlo : -32768 ≤ x) (hhi : x ≤ 32767) :
    -32768 ≤ (if 0 ≤ x then ⌊x⌋ else ⌈x⌉) ∧ (if 0 ≤ x then ⌊x⌋ else ⌈x⌉) ≤ 32767 := by
  have hf : -32768 ≤ ⌊x⌋ := Int.le_floor.2 (by exact_mod_cast hlo)
  have hc : ⌈x⌉ ≤ 32767 := Int.ceil_le.2 (by exact_mod_cast hhi)
  have hfc := Int.floor_le_ceil x
  split_ifs <;> omega

/-- SAT16 answers an int16, whatever is drawn. -/
theorem sat16_mem_int16 (d : Nat) (y : F32) : -32768 ≤ sat16 d y ∧ sat16 d y ≤ 32767 := by
  obtain h | h | h | h := nan_or_inf_or_finite (fmul (d + 10) y int16Ceil)
  · rw [sat16_of_nan h]
    exact ⟨BitVec.le_toInt _, Int.le_of_lt_add_one BitVec.toInt_lt⟩
  · rw [sat16_of_negInf h]
    decide
  · rw [sat16_of_posInf h]
    decide
  · rw [sat16_of_finite rfl h]
    by_cases hlo : rat32 (fmul (d + 10) y int16Ceil) < -32768
    · rw [if_pos hlo]
      decide
    by_cases hhi : 32767 < rat32 (fmul (d + 10) y int16Ceil)
    · rw [if_neg hlo, if_pos hhi]
      decide
    rw [if_neg hlo, if_neg hhi]
    exact trunc_mem_int16 (not_lt.1 hlo) (not_lt.1 hhi)

/-- Settles O51, clause by clause: a NaN, the two infinities, and a finite `v`, which is compared and truncated as the
rational number it is. -/
theorem integerOutputSaturates : Obligations.IntegerOutputSaturates := by
  intro d y v hv
  have hv' : fmul (d + 10) y int16Ceil = v := hv.symm
  refine ⟨sat16_mem_int16 d y, fun h => ?_, fun h => ?_, fun h => ?_, fun h => sat16_of_finite hv' h⟩
  · exact sat16_of_nan (hv' ▸ h)
  · exact sat16_of_negInf (hv'.trans h)
  · exact sat16_of_posInf (hv'.trans h)

end Sys2Proof.Machine
end

section
/-! PROOFS. Determinism (42_biquad.md rule R142): an operation that gives no NaN reads no draw, and a `y` that is no
NaN has none behind it in the recurrence. -/

namespace Sys2Proof.Machine

/-- The draw is read for a NaN only. -/
theorem round32_of_not_nan {v : FpVal} (h : v ≠ .nan) (d d' : Nat) : round32 d' v = round32 d v := by
  cases v with
  | nan => exact absurd rfl h
  | inf n => rfl
  | rat n a c e => rfl

theorem ne_nan_of_round32 {d : Nat} {v : FpVal} (h : isNaN32 (round32 d v) = false) : v ≠ .nan := fun e => by
  rw [(isNaN32_round32 d v).2 e] at h
  exact absurd h (by decide)

theorem val32_ne_nan (b : F32) : val32 b ≠ .nan ↔ isNaN32 b = false := by
  rw [ne_eq, val32_eq_nan, Bool.not_eq_true]

theorem numAdd_nan_right (x : FpVal) : numAdd x .nan = .nan := by cases x <;> rfl

/-- A sum that is no NaN has operands that are none, and does not depend on the draw (R133). -/
theorem fadd_of_not_nan {d : Nat} {a b : F32} (h : isNaN32 (fadd d a b) = false) :
    isNaN32 a = false ∧ isNaN32 b = false ∧ ∀ d', fadd d' a b = fadd d a b := by
  have hne : numAdd (val32 a) (val32 b) ≠ .nan := ne_nan_of_round32 h
  refine ⟨(val32_ne_nan a).1 fun ha => hne ?_, (val32_ne_nan b).1 fun hb => hne ?_, round32_of_not_nan hne d⟩
  · rw [ha]
    rfl
  · rw [hb, numAdd_nan_right]

/-- A product that is no NaN does not depend on the draw. -/
theorem fmul_of_not_nan {d : Nat} {a b : F32} (h : isNaN32 (fmul d a b) = false) (d' : Nat) :
    fmul d' a b = fmul d a b :=
  round32_of_not_nan (ne_nan_of_round32 h) d d'

/-- BQ_STEP without a NaN output makes none on its way, so that no draw is read. -/
theorem bqStep_of_not_nan {d : Nat} {c : Coef} {h : Hist} {x : F32} (hy : isNaN32 (bqStep d c h x).1 = false)
    (d' : Nat) : bqStep d' c h x = bqStep d c h x := by
  obtain ⟨h3, p4, e4⟩ := fadd_of_not_nan hy
  obtain ⟨h2, p3, e3⟩ := fadd_of_not_nan h3
  obtain ⟨h1, p2, e2⟩ := fadd_of_not_nan h2
  obtain ⟨p0, p1, e1⟩ := fadd_of_not_nan h1
  simp only [bqStep, fmul_of_not_nan p0 d', fmul_of_not_nan p1 (d' + 1), fmul_of_not_nan p2 (d' + 3),
    fmul_of_not_nan p3 (d' + 5), fmul_of_not_nan p4 (d' + 7), e1, e2, e3, e4]

/-- FILTER_F32 reads no draw as long as no output is a NaN. -/
theorem filterF32_of_not_nan {c : Coef} (run : List F32) (d d' : Nat) (h : Hist)
    (hy : ∀ y ∈ (filterF32 d c h run).1, isNaN32 y = false) : filterF32 d' c h run = filterF32 d c h run := by
  induction run generalizing d d' h with
  | nil => rfl
  | cons x xs ih =>
    obtain ⟨hx, hxs⟩ := List.forall_mem_cons.1 hy
    simp only [filterF32, bqStep_of_not_nan hx d', ih _ (d' + drawsPerSample) _ hxs]

/-- The input conversion never reads a draw: `i2f(k)` is a number, and so is its quotient by 32767 (R137). -/
theorem normalise_draw (d d' : Nat) (k : Int) : normalise d' k = normalise d k := by
  have hk : val32 (i2f k) ≠ .nan := by
    rw [ne_eq, val32_eq_nan, i2f, isNaN32_round32]
    exact nofun
  refine round32_of_not_nan ?_ (d + 9) (d' + 9)
  rw [val32_int16Ceil]
  cases hv : val32 (i2f k) with
  | nan => exact absurd hv hk
  | inf n => exact nofun
  | rat n a c e => exact nofun

/-- SAT16 reads no draw for a `y` that is no NaN: scaled by 32767 it is none either (R138). -/
theorem sat16_of_not_nan {y : F32} (hy : isNaN32 y = false) (d d' : Nat) : sat16 d' y = sat16 d y := by
  have hyv : val32 y ≠ .nan := (val32_ne_nan y).2 hy
  have hmul : numMul (val32 y) (val32 int16Ceil) ≠ .nan := by
    rw [val32_int16Ceil]
    cases hv : val32 y with
    | nan => exact absurd hv hyv
    | inf n => exact nofun
    | rat n a c e => exact nofun
  have hv : val32 (fmul (d + 10) y int16Ceil) ≠ .nan := by
    rw [ne_eq, val32_eq_nan, fmul, isNaN32_round32]
    exact hmul
  have hd : fmul (d' + 10) y int16Ceil = fmul (d + 10) y int16Ceil := round32_of_not_nan hmul _ _
  simp only [sat16, hd, if_neg hv]

/-- FILTER_I16 reads no draw as long as no output of the recurrence on its converted inputs is a NaN. -/
theorem filterI16_of_not_nan {c : Coef} (run : List Int) (d d' : Nat) (h : Hist)
    (hy : ∀ y ∈ (filterF32 d c h (run.map (normalise d))).1, isNaN32 y = false) :
    filterI16 d' c h run = filterI16 d c h run := by
  induction run generalizing d d' h with
  | nil => rfl
  | cons k ks ih =>
    obtain ⟨hx, hxs⟩ := List.forall_mem_cons.1 hy
    have hnorm : ks.map (normalise d) = ks.map (normalise (d + drawsPerSample)) :=
      List.map_congr_left fun k _ => normalise_draw _ _ k
    rw [hnorm] at hxs
    simp only [filterI16, normalise_draw d d' k, bqStep_of_not_nan hx d', sat16_of_not_nan hx d d',
      ih _ (d' + drawsPerSample) _ hxs]

/-- Settles O48, by induction on the run in both domains: a sample whose `y` is no NaN reads no draw. -/
theorem filterWithoutNanIsDeterministic : Obligations.FilterWithoutNanIsDeterministic :=
  fun d d' _ h => ⟨fun run => filterF32_of_not_nan run d d' h, fun run => filterI16_of_not_nan run d d' h⟩

end Sys2Proof.Machine
end

section
/-! PROOFS. PROCESS on a live instance that is not faulted (43_stereo_adapter.md): the checks of R161 in their order, and
the zero-length run of R167. -/

namespace Sys2Proof.Machine

/-! ### The three rows (R170 to R172) -/

/-- Each row of PROCESS runs the one operation of R160, with some format. -/
theorem exec_process_row {h : Handle} {fmt : BitVec 8} {i : Instr} (s : State)
    (hi : i ∈ [Instr.processPcm16 h, .processPcmfloat h, .processFmt fmt h]) :
    ∃ f, exec i s = .next (process f h s) := by
  simp only [List.mem_cons, List.not_mem_nil, or_false] at hi
  obtain rfl | rfl | rfl := hi
  · exact ⟨0x02, rfl⟩
  · exact ⟨0x04, rfl⟩
  · exact ⟨fmt, rfl⟩

/-- A row of a supported format runs it with a format of that sample width (R77, R162). -/
theorem exec_processOf {h : Handle} {i : Instr} {w : Nat} (s : State) (hi : processOf h i w) :
    ∃ f, fmtSupported f = true ∧ sampleWidth f = w ∧ exec i s = .next (process f h s) := by
  obtain ⟨rfl, rfl⟩ | ⟨rfl, rfl⟩ := hi
  · exact ⟨0x02, rfl, rfl, rfl⟩
  · exact ⟨0x04, rfl, rfl, rfl⟩

/-! ### The checks (R161) -/

theorem addressable_iff (plat : Platform) (p : Nat) (cap : Int) :
    addressable plat p cap = true ↔ viewAddressable plat p cap := by
  simp only [addressable, decide_eq_true_iff, Nat.cast_add]

theorem viewsOk_iff (s : State) : viewsOk s.plat (viewsOf s) = true ↔ viewsAddressable s := by
  simp only [viewsOk, Bool.and_eq_true, addressable_iff]
  rfl

theorem rangeOk_iff (s : State) : rangeOk (viewsOf s) = true ↔ rangeWellFormed s := decide_eq_true_iff

theorem lengthOk_iff (w : Nat) (s : State) : lengthOk (viewsOf s) w = true ↔ lengthFits w s := decide_eq_true_iff

/-- Past the handle and fault checks, the checks of R161 in table order, in the terms of the claims. -/
theorem processCheck_of_live {s : State} {h : Handle} {sl : Slot} (fmt : BitVec 8) (hl : namesLive s h sl)
    (hn : sl.numFault = false) :
    processCheck fmt h s =
      if ¬ viewsAddressable s then .error .invalidArgument
      else if ¬ rangeWellFormed s then .error .invalidArgument
      else if ¬ fmtSupported fmt then .error .unsupportedEncoding
      else if ¬ lengthFits (sampleWidth fmt) s then .error .invalidArgument
      else .ok sl := by
  simp only [processCheck, (liveSlot_eq_some s h sl).2 hl, hn, Bool.false_eq_true, if_false, Bool.not_eq_true',
    ← Bool.not_eq_true, viewsOk_iff, rangeOk_iff, lengthOk_iff]

theorem process_of_error {fmt : BitVec 8} {h : Handle} {s : State} {e : Status}
    (hc : processCheck fmt h s = .error e) : process fmt h s = raise e s := by
  simp only [process, hc]

theorem process_of_ok {fmt : BitVec 8} {h : Handle} {s : State} {sl : Slot}
    (hc : processCheck fmt h s = .ok sl) : process fmt h s = finish (processRun fmt h sl s) := by
  simp only [process, hc]

/-- A status without a FAULT bit of its own changes STATUS alone (R223). -/
theorem raise_of_faultBit_eq_zero {e : Status} (he : faultBit e = 0) (s : State) :
    raise e s = { s with status := statusWord e } := by
  simp only [raise, he, BitVec.ofNat_eq_ofNat, BitVec.or_zero]

/-- INVALID_ARGUMENT has no FAULT bit, so a PROCESS that ends with it writes status code 1 alone. -/
theorem process_of_invalidArgument {fmt : BitVec 8} {h : Handle} {s : State}
    (hc : processCheck fmt h s = .error .invalidArgument) : process fmt h s = { s with status := 1 } :=
  (process_of_error hc).trans (raise_of_faultBit_eq_zero rfl s)

/-- UNSUPPORTED_ENCODING has no FAULT bit, so a PROCESS that ends with it writes status code 2 alone. -/
theorem process_of_unsupportedEncoding {fmt : BitVec 8} {h : Handle} {s : State}
    (hc : processCheck fmt h s = .error .unsupportedEncoding) : process fmt h s = { s with status := 2 } :=
  (process_of_error hc).trans (raise_of_faultBit_eq_zero rfl s)

/-- Settles O33: in each clause the first check that fails gives the status. -/
theorem processRejectsBadArguments : Obligations.ProcessRejectsBadArguments := by
  intro s h sl fmt hl hn
  refine ⟨?_, ?_, ?_⟩
  · intro hbad i hi
    obtain ⟨f, hx⟩ := exec_process_row s hi
    have hc : processCheck f h s = .error .invalidArgument := by
      rw [processCheck_of_live f hl hn]
      obtain hv | hr := hbad
      · rw [if_pos hv]
      · rw [if_pos hr, ite_self]
    rw [hx, process_of_invalidArgument hc]
  · intro h2 h4 hv hr
    have hf : ¬ fmtSupported fmt := by simpa [fmtSupported] using ⟨h2, h4⟩
    have hc : processCheck fmt h s = .error .unsupportedEncoding := by
      rw [processCheck_of_live fmt hl hn, if_neg (not_not_intro hv), if_neg (not_not_intro hr), if_pos hf]
    exact congrArg Host.Outcome.next (process_of_unsupportedEncoding hc)
  · intro i w hi hv hr hlen
    obtain ⟨f, hf, rfl, hx⟩ := exec_processOf s hi
    have hc : processCheck f h s = .error .invalidArgument := by
      rw [processCheck_of_live f hl hn, if_neg (not_not_intro hv), if_neg (not_not_intro hr),
        if_neg (not_not_intro hf), if_pos hlen]
    rw [hx, process_of_invalidArgument hc]

/-! ### The zero-length run (R167) -/

theorem channelFilter_nil (fmt : BitVec 8) (d : Nat) (c : Coef) (h : Hist) : channelFilter fmt d c h [] = ([], h) :=
  ite_self _

/-- `pos = lim` leaves no sample to read. -/
theorem processInput_eq_nil {s : State} (fmt : BitVec 8) (h : s.a1 = s.a2) : processInput fmt s = [] := by
  have hcount : sampleCount (viewsOf s) (sampleWidth fmt) = 0 := by
    simp [sampleCount, viewsLen, viewsOf, h]
  simp only [processInput, hcount, readSamples]

/-- A run over no samples writes back the memory and the slot it found. -/
theorem processRun_eq_self {fmt : BitVec 8} {h : Handle} {sl : Slot} {s : State} (hin : processInput fmt s = [])
    (hs : s.slots[handleSlot h]? = some sl) : processRun fmt h sl s = s := by
  have hslots : s.slots.set (handleSlot h) sl = s.slots := by
    obtain ⟨hlt, rfl⟩ := List.getElem?_eq_some_iff.1 hs
    exact List.set_getElem_self hlt
  have hl : processLeft fmt sl s = ([], sl.hist0) := by
    rw [processLeft, hin]
    exact channelFilter_nil _ _ _ _
  have hr : processRight fmt sl s = ([], sl.hist1) := by
    rw [processRight, hin]
    exact channelFilter_nil _ _ _ _
  simp only [processRun, hl, hr, hin, interleave, writeSamples, setSlot, hslots, List.length_nil, Nat.mul_zero,
    Nat.add_zero]

/-- Settles O38: a length of 0 passes check (c), and the run that follows is over no samples. -/
theorem zeroLengthProcessDoesNothing : Obligations.ZeroLengthProcessDoesNothing := by
  intro s h sl i w hi hl hn hv hr hlen
  obtain ⟨f, hf, -, hx⟩ := exec_processOf s hi
  have ⟨_, _, hcap, _⟩ := hv
  have hfit : lengthFits (sampleWidth f) s := by
    have h0 : processLen s = 0 := by rw [processLen, hlen, Int.sub_self]
    simp [lengthFits, h0, hcap]
  have hc : processCheck f h s = .ok sl := by
    rw [processCheck_of_live f hl hn, if_neg (not_not_intro hv), if_neg (not_not_intro hr),
      if_neg (not_not_intro hf), if_neg (not_not_intro hfit)]
  have ⟨_, hslot, _⟩ := hl
  rw [hx, process_of_ok hc, processRun_eq_self (processInput_eq_nil f hlen) hslot]
  rfl

end Sys2Proof.Machine
end

section
/-! PROOFS. CONFIGURE (44_lifecycle.md rules R190 to R193): its argument checks, the handle it answers, and its one
outcome in each of the three cases. -/

namespace Sys2Proof.Machine

/-- CONFIGURE's argument checks (R193), in the terms of the claims. -/
theorem configureArgs_bad_iff (s : State) : sint32 s.a1 ≠ 2 ∨ sint32 s.a0 ≤ 0 ↔ s.a1 ≠ 2 ∨ s.a0.toInt ≤ 0 := by
  have h2 : sint32 s.a1 = 2 ↔ s.a1 = 2 := BitVec.toInt_inj (y := 2)
  rw [ne_eq, h2, sint32]

theorem configureArgs_ok {s : State} (hch : s.a1 = 2) (hrate : 0 < s.a0.toInt) :
    ¬ (sint32 s.a1 ≠ 2 ∨ sint32 s.a0 ≤ 0) := by
  rw [configureArgs_bad_iff, not_or]
  exact ⟨not_not_intro hch, not_le.2 hrate⟩

/-- RESULT as CONFIGURE writes it (R24, R28): `gen` in [15:8] and the slot in [7:0]. -/
theorem zero_append_mkHandle (gen : BitVec 8) {i : Nat} (hi : i < 256) :
    (0 : BitVec 16) ++ mkHandle gen i = BitVec.ofNat 32 (256 * gen.toNat + i) := by
  have hgen := gen.isLt
  have hdisj : gen.toNat <<< 8 ||| i = 256 * gen.toNat + i := by
    rw [← Nat.shiftLeft_add_eq_or_of_lt hi, Nat.shiftLeft_eq, Nat.mul_comm]
  apply BitVec.eq_of_toNat_eq
  simp only [mkHandle, BitVec.toNat_append, BitVec.toNat_ofNat, BitVec.ofNat_eq_ofNat, Nat.mod_eq_of_lt hi, hdisj,
    Nat.zero_mod, Nat.zero_shiftLeft, Nat.zero_or]
  omega

/-- The FREE slot with only LIVE ones before it is the one CONFIGURE takes (R191). -/
theorem freeSlot_of_least {s : State} {i : Nat} {sl : Slot} (hs : s.slots[i]? = some sl) (hfree : sl.state = .free)
    (hleast : ∀ j sj, j < i → s.slots[j]? = some sj → sj.state = .live) : freeSlot s = some i := by
  obtain ⟨hi, rfl⟩ := List.getElem?_eq_some_iff.1 hs
  exact (freeSlot_eq_some s i).2
    ⟨hi, hfree, fun j hj => hleast j _ hj (List.getElem?_eq_getElem (hj.trans hi))⟩

/-- A slot `freeSlot` answers is one of the array's, and FREE. -/
theorem getElem?_of_freeSlot {s : State} {i : Nat} (hf : freeSlot s = some i) :
    ∃ sl, s.slots[i]? = some sl ∧ sl.state = .free := by
  obtain ⟨hi, hfree, -⟩ := (freeSlot_eq_some s i).1 hf
  exact ⟨s.slots[i], List.getElem?_eq_getElem hi, hfree⟩

/-- Some slot is FREE only if `freeSlot` finds one. -/
theorem exists_freeSlot {s : State} (hf : ∃ sl ∈ s.slots, sl.state = .free) : ∃ i, freeSlot s = some i := by
  rw [← Option.ne_none_iff_exists']
  intro hnone
  obtain ⟨sl, hmem, hfree⟩ := hf
  have hlive := (freeSlot_eq_none s).1 hnone sl hmem
  rw [hfree] at hlive
  cases hlive

/-- A failed argument check ends CONFIGURE before the slots are looked at (R193). -/
theorem execConfigure_of_badArgs {s : State} (hbad : s.a1 ≠ 2 ∨ s.a0.toInt ≤ 0) :
    execConfigure s = .next (raise .invalidArgument { s with result := 0xFFFFFFFF }) := by
  rw [execConfigure, if_pos ((configureArgs_bad_iff s).2 hbad)]

/-- With good arguments and no slot FREE, CONFIGURE ends with NO_FREE_SLOT (R191). -/
theorem execConfigure_of_full {s : State} (hch : s.a1 = 2) (hrate : 0 < s.a0.toInt) (hfull : freeSlot s = none) :
    execConfigure s = .next (raise .noFreeSlot { s with result := 0xFFFFFFFF }) := by
  rw [execConfigure, if_neg (configureArgs_ok hch hrate), hfull]

/-- With good arguments and a slot FREE, CONFIGURE makes the instance there and answers its handle (R190, R192). -/
theorem execConfigure_of_free {s : State} {i : Nat} {sl : Slot} (hch : s.a1 = 2) (hrate : 0 < s.a0.toInt)
    (hfree : freeSlot s = some i) (hs : s.slots[i]? = some sl) :
    execConfigure s = .next (finish { setSlot s i (configuredSlot sl s.a0 s.a2) with
      result := (0 : BitVec 16) ++ mkHandle sl.gen i }) := by
  have hget : s.slots.getD i Slot.reset = sl := by rw [List.getD_eq_getElem?_getD, hs, Option.getD_some]
  rw [execConfigure, if_neg (configureArgs_ok hch hrate), hfree]
  simp only [hget]

/-- Settles O18: the least FREE slot is the one `freeSlot` answers, and `configuredSlot` gives every field of it. -/
theorem configureCreatesInstance : Obligations.ConfigureCreatesInstance := by
  intro s i sl hch hrate hi hs hfree hleast
  refine (execConfigure_of_free hch hrate (freeSlot_of_least hs hfree hleast) hs).trans ?_
  rw [zero_append_mkHandle sl.gen hi]
  rfl

/-- Settles O19: the three cases of CONFIGURE; `bpf` is in no check, and `configuredSlot` records it (R33). -/
theorem configureRejects : Obligations.ConfigureRejects := by
  intro s
  refine ⟨?_, ?_, ?_⟩
  · intro hbad
    exact (execConfigure_of_badArgs hbad).trans (congrArg Host.Outcome.next (raise_of_faultBit_eq_zero rfl _))
  · intro hch hrate hlive
    have hfull : freeSlot s = none := (freeSlot_eq_none s).2 hlive
    exact (execConfigure_of_full hch hrate hfull).trans (congrArg Host.Outcome.next (raise_of_faultBit_eq_zero rfl _))
  · intro hch hrate hex
    obtain ⟨i, hf⟩ := exists_freeSlot hex
    obtain ⟨sl, hs, hfree⟩ := getElem?_of_freeSlot hf
    obtain ⟨hi, -⟩ := List.getElem?_eq_some_iff.1 hs
    exact ⟨_, i, sl, configuredSlot sl s.a0 s.a2, execConfigure_of_free hch hrate hf hs, rfl, hs, hfree,
      List.getElem?_set_self hi, rfl⟩

end Sys2Proof.Machine
end

section
/-! PROOFS. RESET and RELEASE of a live instance, and ILLEGAL (44_lifecycle.md rules R195 to R201). -/

namespace Sys2Proof.Machine

/-- RESET of an unfaulted instance zeroes both histories, and ends with OK (R196). -/
theorem execReset_of_live {s : State} {h : Handle} {sl : Slot} (hl : liveSlot s h = some sl)
    (hn : sl.numFault = false) :
    execReset h s = .next (finish (setSlot s (handleSlot h) { sl with hist0 := Hist.zero, hist1 := Hist.zero })) := by
  simp only [execReset, hl, hn, Bool.false_eq_true, if_false]

/-- RELEASE frees the slot of a live instance, faulted or not, and ends with OK (R199). -/
theorem execRelease_of_live {s : State} {h : Handle} {sl : Slot} (hl : liveSlot s h = some sl) :
    execRelease h s = .next (finish (setSlot s (handleSlot h) (releasedSlot sl))) := by
  simp only [execRelease, hl]

/-- The slot after RELEASE, field by field (R199). -/
theorem releasedSlot_eq (sl : Slot) :
    releasedSlot sl = ⟨.free, BitVec.ofNat 8 ((sl.gen.toNat + 1) % 256), false, 0, 0, Coef.zero, Coef.zero,
      Hist.zero, Hist.zero⟩ := by
  have hgen : sl.gen + 1 = BitVec.ofNat 8 ((sl.gen.toNat + 1) % 256) :=
    BitVec.eq_of_toNat_eq (by simp)
  rw [← hgen]
  rfl

/-- Settles O27: the handle names the slot `liveSlot` answers, and RESET writes its two histories alone. -/
theorem resetZeroesBothHistories : Obligations.ResetZeroesBothHistories := by
  intro s h sl hlive hn
  exact execReset_of_live ((liveSlot_eq_some s h sl).2 hlive) hn

/-- Settles O28: the handle names the slot `liveSlot` answers, and `releasedSlot_eq` gives every field of what RELEASE
writes there. -/
theorem releaseFreesSlot : Obligations.ReleaseFreesSlot := by
  intro s h sl hlive
  refine (execRelease_of_live ((liveSlot_eq_some s h sl).2 hlive)).trans ?_
  rw [releasedSlot_eq]
  rfl

/-- ILLEGAL ends with ILLEGAL_COMMAND, status code 5 and bit 2 of FAULT, whatever the word (R201). -/
theorem exec_illegal (w : Word) (s : State) :
    exec (.illegal w) s = .next { s with status := 5, fault := s.fault ||| 4 } := rfl

/-- Settles O31: a word that R75 and R76 reject decodes to ILLEGAL (O3). -/
theorem illegalCommandEnds : Obligations.IllegalCommandEnds := by
  intro s w
  refine ⟨exec_illegal w s, fun hw => ?_⟩
  rw [(illegalWordsExactly w).2 hw]
  exact exec_illegal w s

end Sys2Proof.Machine
end

section
/-! PROOFS. Power-on reset (70_reset_and_hazards.md rule R250), and what a failed PROCESS leaves as it was (R259). -/

namespace Sys2Proof.Machine

/-! ### Power-on reset (R250) -/

/-- CAPS holds N_SLOTS in [8:0], and the rest is 0 (R26). -/
theorem caps_fields (s : State) :
    (caps s).extractLsb' 0 9 = BitVec.ofNat 9 s.plat.nSlots ∧ (caps s).extractLsb' 9 23 = 0 :=
  ⟨BitVec.extractLsb'_append_eq_right, BitVec.extractLsb'_append_eq_left⟩

theorem powerOnValues_resetOn (p : Platform) : powerOnValues (State.resetOn p) where
  cmd := rfl
  args := ⟨rfl, rfl, rfl, rfl, rfl, rfl⟩
  status := rfl
  result := rfl
  fault := rfl
  caps := caps_fields _
  slotCount := List.length_replicate
  slots _ hsl := List.eq_of_mem_replicate hsl

/-- `powerOnValues` reads the registers and slots alone, which power-on reset leaves as `State.resetOn` has them. -/
theorem powerOnValues_powerOnReset (s : State) : powerOnValues (powerOnReset s) :=
  { powerOnValues_resetOn s.plat with }

theorem step_powerOnReset {s : State} {rest : List HostEvent} (hh : s.host = .powerOnReset :: rest) :
    step s = .next (powerOnReset { s with host := rest }) := by
  simp only [step, hh, hostEvent]

/-- Settles O12: the step is `powerOnReset`, on the platform of the state it finds. -/
theorem powerOnResetValues : Obligations.PowerOnResetValues := by
  intro s rest _ hh
  exact ⟨_, step_powerOnReset hh, powerOnReset_plat _, powerOnValues_powerOnReset _⟩

/-! ### A failed PROCESS (R168, R259) -/

/-- Settles O37: a PROCESS either fails a check, and raises its status, or runs, and then its status is OK. -/
theorem processAllOrNothing : Obligations.ProcessAllOrNothing := by
  intro s t h fmt i hi hx hst
  obtain ⟨f, hf⟩ := exec_process_row s hi
  obtain rfl : process f h s = t := Host.Outcome.next.inj (hf.symm.trans hx)
  obtain ⟨e, -, he⟩ | ⟨sl, -, hok⟩ := process_cases f h s
  · rw [he]
    rfl
  · have hzero : (process f h s).status = 0 := by rw [hok]; rfl
    exact absurd hzero hst

end Sys2Proof.Machine
end

section
/-! PROOFS. Decoding and encoding are inverse (30_encoding.md rules R71, R72, R76): which row a command word matches is
decided by its OP, and for PROCESS by its FMT. -/

namespace Sys2Proof

open Sys2Proof.Laws.EncodesItsRow (commandWord_and_fmt_op commandWord_and_op)

@[simp] theorem handleField_commandWord (fmt : BitVec 8) (h : Handle) (op : BitVec 4) :
    handleField (commandWord fmt h op) = h := by
  have hlow : commandWord fmt h op = fmt ++ (h ++ ((0 : BitVec 4) ++ op)) := BitVec.append_assoc
  rw [handleField, hlow, BitVec.extractLsb'_append_eq_of_add_le (by decide)]
  exact BitVec.extractLsb'_append_eq_left

@[simp] theorem fmtField_commandWord (fmt : BitVec 8) (h : Handle) (op : BitVec 4) :
    fmtField (commandWord fmt h op) = fmt := by
  have hlow : commandWord fmt h op = fmt ++ (h ++ ((0 : BitVec 4) ++ op)) := BitVec.append_assoc
  rw [fmtField, hlow]
  exact BitVec.extractLsb'_append_eq_left

/-- The word of CONFIGURE has OP = 1, so a command word of another OP is not it. -/
theorem commandWord_ne_configure (fmt : BitVec 8) (h : Handle) {op : BitVec 4} (hop : op ≠ 1) :
    commandWord fmt h op &&& 0xFFFFFFFF ≠ 0x00000001 := by
  intro he
  have hw : commandWord fmt h op = commandWord 0 0 1 := (BitVec.and_allOnes (x := commandWord fmt h op)).symm.trans he
  have hrow : commandWord 0 0 op = 1 := by
    rw [← commandWord_and_op fmt h op, hw]
    decide
  have hinj : ∀ o : BitVec 4, commandWord 0 0 o = 1 → o = 1 := by decide
  exact hop (hinj op hrow)

/-- The rows of the seven masks, for a command word of another OP than CONFIGURE's. -/
theorem decode_commandWord (fmt : BitVec 8) (h : Handle) {op : BitVec 4} (hop : op ≠ 1) :
    decode (commandWord fmt h op) =
      if commandWord fmt 0 op = 0x00000002 then .setparams h
      else if commandWord fmt 0 op = 0x02000003 then .processPcm16 h
      else if commandWord fmt 0 op = 0x04000003 then .processPcmfloat h
      else if commandWord 0 0 op = 0x00000003 then .processFmt fmt h
      else if commandWord fmt 0 op = 0x00000004 then .reset h
      else if commandWord fmt 0 op = 0x00000005 then .release h
      else .illegal (commandWord fmt h op) := by
  rw [decode, if_neg (commandWord_ne_configure fmt h hop)]
  simp only [commandWord_and_fmt_op, commandWord_and_op, handleField_commandWord, fmtField_commandWord]

/-- PROCESS with an FMT other than the two supported ones matches the row of PROCESS.FMT<n> (R72, R77). -/
theorem decode_commandWord_fmt {fmt : BitVec 8} (h : Handle) (h2 : fmt ≠ 0x02) (h4 : fmt ≠ 0x04) :
    decode (commandWord fmt h 3) = .processFmt fmt h := by
  have hrows : ∀ f : BitVec 8, f ≠ 0x02 → f ≠ 0x04 → commandWord f 0 3 ≠ 0x00000002 ∧ commandWord f 0 3 ≠ 0x02000003 ∧
      commandWord f 0 3 ≠ 0x04000003 := by decide
  obtain ⟨r2, r02, r04⟩ := hrows fmt h2 h4
  rw [decode_commandWord fmt h (by decide), if_neg r2, if_neg r02, if_neg r04]
  rfl

/-- Settles O1, row by row: the OP and FMT of a command word fail every row above its own; an illegal word matches
none (O3). -/
theorem encodingRoundTrips : Obligations.EncodingRoundTrips := by
  intro i hwf
  cases i with
  | configure => rfl
  | setparams h => exact decode_commandWord 0 h (by decide)
  | processPcm16 h => exact decode_commandWord 2 h (by decide)
  | processPcmfloat h => exact decode_commandWord 4 h (by decide)
  | processFmt fmt h =>
    obtain ⟨h2, h4⟩ : fmt ≠ 0x02 ∧ fmt ≠ 0x04 := by simpa [Instr.wf] using hwf
    exact decode_commandWord_fmt h h2 h4
  | reset h => exact decode_commandWord 0 h (by decide)
  | release h => exact decode_commandWord 0 h (by decide)
  | illegal w => exact (illegalWordsExactly w).2 hwf

/-- Every PROCESS word is that of one of the three rows (R72, R77). -/
theorem exists_encode_process (fmt : BitVec 8) (h : Handle) : ∃ i : Instr, i.wf = true ∧ encode i = commandWord fmt h 3 := by
  by_cases h2 : fmt = 0x02
  · exact ⟨.processPcm16 h, rfl, by rw [h2]; rfl⟩
  by_cases h4 : fmt = 0x04
  · exact ⟨.processPcmfloat h, rfl, by rw [h4]; rfl⟩
  exact ⟨.processFmt fmt h, Bool.and_eq_true_iff.2 ⟨bne_iff_ne.2 h2, bne_iff_ne.2 h4⟩, rfl⟩

/-- Every word is the word of a well-formed instruction: ILLEGAL's own, or the command word of its fields (R75, R76). -/
theorem exists_encode_eq (w : Word) : ∃ i : Instr, i.wf = true ∧ encode i = w := by
  by_cases hw : isIllegalWord w = true
  · exact ⟨.illegal w, hw, rfl⟩
  obtain ⟨hr, hfields⟩ := fields_of_not_illegal w (Bool.eq_false_of_not_eq_true hw)
  rw [eq_commandWord_of_rsv_zero w hr]
  obtain ⟨ho, hs, hg, hf⟩ | ⟨ho, hf⟩ | ho | ⟨ho, hf⟩ | ⟨ho, hf⟩ := hfields
  · rw [ho, hs, hg, hf]
    exact ⟨.configure, rfl, rfl⟩
  · rw [ho, hf]
    exact ⟨.setparams _, rfl, rfl⟩
  · rw [ho]
    exact exists_encode_process _ _
  · rw [ho, hf]
    exact ⟨.reset _, rfl, rfl⟩
  · rw [ho, hf]
    exact ⟨.release _, rfl, rfl⟩

/-- Settles O2: the word is that of a well-formed instruction, which decoding gives back (O1). -/
theorem everyWordIsOneCommand : Obligations.EveryWordIsOneCommand := by
  intro w
  obtain ⟨i, hwf, rfl⟩ := exists_encode_eq w
  rw [encodingRoundTrips i hwf]
  exact ⟨hwf, rfl⟩

/-- Settles O4: each of the twelve words is closed, and its row is found by evaluation. -/
theorem specWordsDecode : Obligations.SpecWordsDecode := by
  unfold Obligations.SpecWordsDecode
  decide

end Sys2Proof
end

section
/-! PROOFS. Rounding depends on the rational value alone (00_scope.md rule R10): fractions of one value have the same unit,
the same nearest integer, and so the same encoding, in either format. -/

namespace Sys2Proof.Machine

/-- Two nearest integers of one number are equal: they are at most 1 apart, and even where they differ. -/
theorem IsNearestInt.unique {y : ℚ} {m n : ℤ} (hm : IsNearestInt y m) (hn : IsNearestInt y n) : m = n := by
  by_contra hne
  have hdist : |(m : ℚ) - y| = |(n : ℚ) - y| := le_antisymm (hm.le_dist n).1 (hn.le_dist m).1
  have hem : Even m := (hm.le_dist n).2 hdist (Ne.symm hne)
  have hen : Even n := (hn.le_dist m).2 hdist.symm hne
  have htri : |(m : ℚ) - n| ≤ |(m : ℚ) - y| + |(n : ℚ) - y| := by
    rw [abs_sub_comm (n : ℚ) y]
    exact abs_sub_le _ _ _
  have hone : |m - n| ≤ 1 := by
    have : |(m : ℚ) - n| ≤ 1 := by linarith [hm.1, hn.1]
    exact_mod_cast this
  obtain ⟨i, rfl⟩ := hem
  obtain ⟨j, rfl⟩ := hen
  obtain ⟨h1, h2⟩ := abs_le.1 hone
  omega

theorem divNearestEven_congr {a c a' c' : Nat} (hc : 0 < c) (hc' : 0 < c') (h : (a : ℚ) / c = a' / c') :
    divNearestEven a c = divNearestEven a' c' := by
  have hn := isNearestInt_divNearestEven a c hc
  have hn' := isNearestInt_divNearestEven a' c' hc'
  rw [← h] at hn'
  exact_mod_cast hn.unique hn'

/-- Two units of one number, each leaving it at most `P`, and at least `P / 2` when above the least unit `m`, are in
order. -/
theorem unit_le_unit {x P : ℚ} {m q q' : ℤ} (hx : 0 < x) (hq : m ≤ q) (hlt : x / 2 ^ q < P)
    (hge : m < q' → P ≤ x / 2 ^ q' * 2) : q' ≤ q := by
  by_contra hlt'
  have hP := hge (by omega)
  have hmono : (2 : ℚ) ^ q * 2 ≤ 2 ^ q' := by
    rw [← zpow_add_one₀ two_ne_zero]
    exact zpow_le_zpow_right₀ one_le_two (by omega)
  have hle : x / 2 ^ q' * 2 ≤ x / 2 ^ q := by
    rw [div_mul_eq_mul_div, div_le_div_iff₀ (by positivity) (by positivity)]
    nlinarith
  linarith

theorem mul_two_zpow_sub (v : ℚ) (e q : ℤ) : v * 2 ^ (e - q) = v * 2 ^ e / 2 ^ q := by
  rw [zpow_sub₀ two_ne_zero, mul_div_assoc]

theorem unitExp_congr (F : Fmt) {a c a' c' : Nat} {e e' : Int} (ha : 0 < a) (hc : 0 < c) (ha' : 0 < a') (hc' : 0 < c')
    (h : (a : ℚ) / c * 2 ^ e = a' / c' * 2 ^ e') : unitExp F a c e = unitExp F a' c' e' := by
  have hx : 0 < (a : ℚ) / c * 2 ^ e := by positivity
  obtain ⟨hq, hlt, hge⟩ := unitExp_spec F e ha hc
  obtain ⟨hq', hlt', hge'⟩ := unitExp_spec F e' ha' hc'
  rw [mul_two_zpow_sub] at hlt hge hlt' hge'
  rw [← h] at hlt' hge'
  exact le_antisymm (unit_le_unit hx hq' hlt' hge) (unit_le_unit hx hq hlt hge')

/-- The encoding of a magnitude depends on its value alone. -/
theorem roundMag_congr (F : Fmt) {a c a' c' : Nat} {e e' : Int} (hc : 0 < c) (hc' : 0 < c')
    (h : (a : ℚ) / c * 2 ^ e = a' / c' * 2 ^ e') : roundMag F a c e = roundMag F a' c' e' := by
  have hcq : (c : ℚ) ≠ 0 := by exact_mod_cast hc.ne'
  have hcq' : (c' : ℚ) ≠ 0 := by exact_mod_cast hc'.ne'
  have hz : a = 0 ↔ a' = 0 := by
    have hzero : (a : ℚ) / c * 2 ^ e = 0 ↔ (a' : ℚ) / c' * 2 ^ e' = 0 := by rw [h]
    simpa [hcq, hcq', (zpow_pos (two_pos (α := ℚ)) _).ne'] using hzero
  by_cases ha : a = 0
  · rw [ha, hz.1 ha]
    rfl
  have hu := unitExp_congr F (Nat.pos_of_ne_zero ha) hc (Nat.pos_of_ne_zero (mt hz.2 ha)) hc' h
  have hdiv : divNearestEven (scaleFrac a c (e - unitExp F a c e)).1 (scaleFrac a c (e - unitExp F a c e)).2 =
      divNearestEven (scaleFrac a' c' (e' - unitExp F a c e)).1 (scaleFrac a' c' (e' - unitExp F a c e)).2 := by
    refine divNearestEven_congr (scaleFrac_den_pos _ hc) (scaleFrac_den_pos _ hc') ?_
    rw [scaleFrac_eq, scaleFrac_eq, mul_two_zpow_sub, mul_two_zpow_sub, h]
  simp only [roundMag, if_neg ha, if_neg (mt hz.2 ha), ← hu, hdiv]

end Sys2Proof.Machine
end

section
/-! PROOFS. The reference design (41_coefficient_designer.md rules R102, R103, R109): `a1` is `-b1`, and at zero gain the
numerator and the denominator of the section are the same. -/

namespace Sys2Proof.Machine

/-- Adding `2 ^ 31` to a word flips bit 31. -/
theorem ofNat_add_two_pow_31 (m : Nat) : BitVec.ofNat 32 (m + 2 ^ 31) = BitVec.ofNat 32 m ^^^ 0x80000000 := by
  apply BitVec.eq_of_getLsbD_eq
  intro i hi
  rw [BitVec.getLsbD_xor, BitVec.getLsbD_ofNat, BitVec.getLsbD_ofNat, Nat.add_comm m]
  obtain rfl | hlt : i = 31 ∨ i < 31 := by omega
  · rw [Nat.testBit_two_pow_add_eq]
    simp
  · have hbit : (0x80000000 : BitVec 32).getLsbD i = false := by interval_cases i <;> rfl
    rw [Nat.testBit_two_pow_add_gt hlt, hbit, Bool.xor_false]

/-- Flipping the sign flips bit 31. -/
theorem pack32_not (n : Bool) (m : Nat) : pack32 (!n) m = pack32 n m ^^^ 0x80000000 := by
  have hset : pack32 true m = pack32 false m ^^^ 0x80000000 := ofNat_add_two_pow_31 m
  cases n
  · exact hset
  · rw [Bool.not_true, hset, BitVec.xor_assoc, BitVec.xor_self, BitVec.xor_zero]

/-- Narrowing a negated number flips the sign, unless it is a NaN, which is not finite (R104, R105). -/
theorem narrow32_numNeg {x : FpVal} (hf : isFinite32 (narrow32 x) = true) :
    narrow32 (numNeg x) = narrow32 x ^^^ 0x80000000 := by
  cases x with
  | nan => exact absurd hf (by decide)
  | inf n => exact pack32_not n _
  | rat n a d e => exact pack32_not n _

theorem coefFinite_iff (c : Coef) : coefFinite c = true ↔
    isFinite32 c.b0 = true ∧ isFinite32 c.b1 = true ∧ isFinite32 c.b2 = true ∧ isFinite32 c.a1 = true ∧
      isFinite32 c.a2 = true := by
  simp only [coefFinite, Bool.and_eq_true, and_assoc]

/-- Settles O23: `a1` narrows the negation of what `b1` narrows, since `a1r` and `b1r` are one term. -/
theorem refDesignFeedbackNegated : Obligations.RefDesignFeedbackNegated := by
  intro rate g f q hfin
  obtain ⟨-, hb1, -⟩ := (coefFinite_iff _).1 hfin
  exact narrow32_numNeg hb1

/-- A finite reference design has not all of its coefficients negative: `a1` and `b1` differ in sign. -/
theorem someSignClear_ref64 {rate : Int} {g f q : F32} (hfin : coefFinite (ref64 21 rate g f q) = true) :
    someSignClear (ref64 21 rate g f q) := by
  have ha1 := refDesignFeedbackNegated rate g f q hfin
  cases hb : (ref64 21 rate g f q).b1.msb with
  | false => exact .inr (.inl hb)
  | true =>
    refine .inr (.inr (.inr (.inl ?_)))
    rw [ha1, BitVec.msb_xor, hb]
    rfl

/-! ### Zero gain (R109) -/

/-- The binary64 value 1.0. -/
def one64 : FpVal := .rat false (2 ^ 52) 1 (-52)

/-- Each binary64 operation gives a NaN, an infinity, or a number without a denominator. -/
theorem round64_cases (x : FpVal) :
    round64 x = .nan ∨ (∃ n, round64 x = .inf n) ∨ ∃ n a e, round64 x = .rat n a 1 e := by
  cases x with
  | nan => exact .inl rfl
  | inf n => exact .inr (.inl ⟨n, rfl⟩)
  | rat n a d e =>
    simp only [round64, unpack]
    split_ifs
    · exact .inr (.inl ⟨_, rfl⟩)
    · exact .inl rfl
    · exact .inr (.inr ⟨_, _, _, rfl⟩)
    · exact .inr (.inr ⟨_, _, _, rfl⟩)

/-- Zero gain in decibels, of either sign, is the amplitude 1. -/
theorem amp_of_zero_gain {g : F32} (hg : g = 0 ∨ g = 0x80000000) :
    pow10_64 (div64 (mul64 (numOfInt (21 : Nat)) (val32 g)) (numOfInt 40)) = one64 := by
  obtain rfl | rfl := hg <;> decide +kernel

/-- Multiplying by 1 and dividing by 1 round the same value. -/
theorem mul64_one_eq_div64_one (x : FpVal) : mul64 (round64 x) one64 = div64 (round64 x) one64 := by
  obtain h | ⟨n, h⟩ | ⟨n, a, e, h⟩ := round64_cases x
  · rw [h]
    rfl
  · rw [h]
    rfl
  · rw [h]
    have hmag : roundMag binary64 (a * 2 ^ 52) (1 * 1) (e + -52) = roundMag binary64 (a * 1) (1 * 2 ^ 52) (e - -52) := by
      refine roundMag_congr binary64 (by norm_num) (by norm_num) ?_
      rw [zpow_add₀ two_ne_zero, zpow_sub₀ two_ne_zero]
      push_cast
      norm_num
      ring
    simp only [mul64, div64, one64, numMul, numDiv, round64, hmag]
    norm_num

/-- A finite quotient of a binary64 value by itself is 1. -/
theorem narrow32_div64_self {x : FpVal} (hf : isFinite32 (narrow32 (div64 (round64 x) (round64 x))) = true) :
    narrow32 (div64 (round64 x) (round64 x)) = 0x3F800000 := by
  obtain h | ⟨n, h⟩ | ⟨n, a, e, h⟩ := round64_cases x
  · rw [h] at hf
    exact absurd hf (by decide)
  · rw [h] at hf
    exact absurd (show isFinite32 (narrow32 .nan) = true from hf) (by decide)
  · rw [h] at hf ⊢
    by_cases ha : a = 0
    · rw [ha, div64, numDiv, if_pos rfl, if_pos rfl] at hf
      exact absurd hf (by decide)
    have haq : (a : ℚ) ≠ 0 := by exact_mod_cast ha
    have hmag : roundMag binary64 (a * 1) (1 * a) (e - e) = roundMag binary64 1 1 0 := by
      refine roundMag_congr binary64 (by omega) one_pos ?_
      push_cast
      field_simp
      norm_num
    rw [div64, numDiv, if_neg ha, bne_self_eq_false, round64, hmag]
    decide +kernel

/-- Settles O24: at amplitude 1 `alpha * A` and `alpha / A` agree, so that `a0r` is `b0r` and `a2r` is `b2r`. -/
theorem refDesignAtZeroGain : Obligations.RefDesignAtZeroGain := by
  intro rate g f q hg hfin
  obtain ⟨hb0, -, hb2, -⟩ := (coefFinite_iff _).1 hfin
  have hab (x y : FpVal) : mul64 (div64 x y) one64 = div64 (div64 x y) one64 := mul64_one_eq_div64_one (numDiv x y)
  simp only [ref64, amp_of_zero_gain hg, hab] at hb0 hb2
  refine ⟨?_, refDesignFeedbackNegated rate g f q hfin, ?_⟩
  · simp only [ref64, amp_of_zero_gain hg, hab]
    exact narrow32_div64_self hb0
  · simp only [ref64, amp_of_zero_gain hg, hab]
    exact narrow32_numNeg hb2

end Sys2Proof.Machine
end

section
/-! PROOFS. All a command can do, said once (60_exceptions.md rules R220 to R223, R233): it fails and changes STATUS and
FAULT, or it is one of the effects of its row; and what each leaves unchanged. -/

namespace Sys2Proof.Machine

/-- The format and the handle of a PROCESS row (R170 to R172). -/
def processRow : Instr → Option (BitVec 8 × Handle)
  | .processPcm16 h => some (0x02, h)
  | .processPcmfloat h => some (0x04, h)
  | .processFmt fmt h => some (fmt, h)
  | .configure | .setparams _ | .reset _ | .release _ | .illegal _ => none

/-- `CommandEnds s i t`: from `s`, `t` is one of the ways the command `i` can end. -/
inductive CommandEnds (s : State) : Instr → State → Prop where
  /-- A check fails, and nothing but STATUS and FAULT changes. -/
  | failed (i : Instr) (e : Status) (he : e ≠ .ok) : CommandEnds s i (raise e s)
  /-- CONFIGURE fails, and RESULT says so (R24, R193). -/
  | configureFailed (e : Status) (he : e ≠ .ok) :
      CommandEnds s .configure (raise e { s with result := 0xFFFFFFFF })
  /-- CONFIGURE makes an instance in the least FREE slot (R190). -/
  | configured (k : Nat) (sl : Slot) (hk : freeSlot s = some k) (hs : s.slots[k]? = some sl) :
      CommandEnds s .configure (finish { setSlot s k (configuredSlot sl s.a0 s.a2) with
        result := (0 : BitVec 16) ++ mkHandle sl.gen k })
  /-- SETPARAMS installs a finite design (R106). -/
  | designed (h : Handle) (sl : Slot) (hl : liveSlot s h = some sl) (hf : coefFinite (designOf s) = true) :
      CommandEnds s (.setparams h) (finish (setSlot s (handleSlot h) (installed sl (designOf s))))
  /-- SETPARAMS marks the instance (R107). -/
  | marked (h : Handle) (sl : Slot) (hl : liveSlot s h = some sl) :
      CommandEnds s (.setparams h)
        (raise .numericInstability (setSlot s (handleSlot h) { sl with numFault := true }))
  /-- PROCESS runs (R160). -/
  | processed (i : Instr) (fmt : BitVec 8) (h : Handle) (sl : Slot) (hi : processRow i = some (fmt, h))
      (hc : processCheck fmt h s = .ok sl) : CommandEnds s i (finish (processRun fmt h sl s))
  /-- RESET zeroes both histories (R196). -/
  | zeroed (h : Handle) (sl : Slot) (hl : liveSlot s h = some sl) :
      CommandEnds s (.reset h)
        (finish (setSlot s (handleSlot h) { sl with hist0 := Hist.zero, hist1 := Hist.zero }))
  /-- RELEASE frees the slot (R199). -/
  | freed (h : Handle) (sl : Slot) (hl : liveSlot s h = some sl) :
      CommandEnds s (.release h) (finish (setSlot s (handleSlot h) (releasedSlot sl)))

/-- A check of PROCESS that fails gives no OK (R161). -/
theorem processCheck_ne_ok {fmt : BitVec 8} {h : Handle} {s : State} {e : Status}
    (hc : processCheck fmt h s = .error e) : e ≠ .ok := by
  unfold processCheck at hc
  rintro rfl
  split at hc
  · cases hc
  · split_ifs at hc <;> cases hc

theorem process_ends (i : Instr) (fmt : BitVec 8) (h : Handle) (s : State) (hi : processRow i = some (fmt, h)) :
    CommandEnds s i (process fmt h s) := by
  obtain ⟨e, hc, he⟩ | ⟨sl, hc, he⟩ := process_cases fmt h s
  · rw [he]
    exact .failed i e (processCheck_ne_ok hc)
  · rw [he]
    exact .processed i fmt h sl hi hc

theorem execConfigure_ends (s : State) : ∃ t, execConfigure s = .next t ∧ CommandEnds s .configure t := by
  by_cases hbad : s.a1 ≠ 2 ∨ s.a0.toInt ≤ 0
  · exact ⟨_, execConfigure_of_badArgs hbad, .configureFailed _ nofun⟩
  rw [not_or, not_not, not_le] at hbad
  obtain ⟨hch, hrate⟩ := hbad
  cases hk : freeSlot s with
  | none => exact ⟨_, execConfigure_of_full hch hrate hk, .configureFailed _ nofun⟩
  | some k =>
    obtain ⟨sl, hs, -⟩ := getElem?_of_freeSlot hk
    exact ⟨_, execConfigure_of_free hch hrate hk hs, .configured k sl hk hs⟩

/-- A non-finite design marks the slot of a live, unfaulted instance (R107). -/
theorem execSetparams_of_not_finite {h : Handle} {s : State} {sl : Slot} (hl : liveSlot s h = some sl)
    (hn : sl.numFault = false) (hf : coefFinite (designOf s) = false) :
    execSetparams h s = .next (raise .numericInstability (setSlot s (handleSlot h) { sl with numFault := true })) := by
  simp only [execSetparams, hl, hn, hf, Bool.false_eq_true, if_false]

/-- Every check of R107 on the sticky mark ends the command with NUMERIC_INSTABILITY. -/
theorem exec_of_faulted {i : Instr} {h : Handle} {s : State} {sl : Slot} {fmt : BitVec 8} (hl : liveSlot s h = some sl)
    (hn : sl.numFault = true)
    (hi : i ∈ [Instr.setparams h, .processPcm16 h, .processPcmfloat h, .processFmt fmt h, .reset h]) :
    exec i s = .next (raise .numericInstability s) := by
  have hprocess (f : BitVec 8) : process f h s = raise .numericInstability s :=
    process_of_error (by simp only [processCheck, hl, hn, if_true])
  simp only [List.mem_cons, List.not_mem_nil, or_false] at hi
  obtain rfl | rfl | rfl | rfl | rfl := hi
  · simp only [exec, execSetparams, hl, hn, if_true]
  · exact congrArg Host.Outcome.next (hprocess _)
  · exact congrArg Host.Outcome.next (hprocess _)
  · exact congrArg Host.Outcome.next (hprocess _)
  · simp only [exec, execReset, hl, hn, if_true]

theorem execSetparams_ends (h : Handle) (s : State) :
    ∃ t, execSetparams h s = .next t ∧ CommandEnds s (.setparams h) t := by
  cases hl : liveSlot s h with
  | none => exact ⟨_, exec_of_absent (.setparams h) h s rfl ((liveSlot_eq_none s h).1 hl), .failed _ _ nofun⟩
  | some sl =>
    cases hn : sl.numFault with
    | true => exact ⟨_, exec_of_faulted (fmt := 0) (i := .setparams h) hl hn (by simp), .failed _ _ nofun⟩
    | false =>
      cases hf : coefFinite (designOf s) with
      | true => exact ⟨_, execSetparams_of_finite h s sl hl hn hf, .designed h sl hl hf⟩
      | false => exact ⟨_, execSetparams_of_not_finite hl hn hf, .marked h sl hl⟩

theorem execReset_ends (h : Handle) (s : State) : ∃ t, execReset h s = .next t ∧ CommandEnds s (.reset h) t := by
  cases hl : liveSlot s h with
  | none => exact ⟨_, exec_of_absent (.reset h) h s rfl ((liveSlot_eq_none s h).1 hl), .failed _ _ nofun⟩
  | some sl =>
    cases hn : sl.numFault with
    | true => exact ⟨_, exec_of_faulted (fmt := 0) (i := .reset h) hl hn (by simp), .failed _ _ nofun⟩
    | false => exact ⟨_, execReset_of_live hl hn, .zeroed h sl hl⟩

theorem execRelease_ends (h : Handle) (s : State) : ∃ t, execRelease h s = .next t ∧ CommandEnds s (.release h) t := by
  cases hl : liveSlot s h with
  | none => exact ⟨_, exec_of_absent (.release h) h s rfl ((liveSlot_eq_none s h).1 hl), .failed _ _ nofun⟩
  | some sl => exact ⟨_, execRelease_of_live hl, .freed h sl hl⟩

/-- Every command answers a next state (R12), by one of its ways to end. -/
theorem exec_ends (i : Instr) (s : State) : ∃ t, exec i s = .next t ∧ CommandEnds s i t := by
  cases i with
  | configure => exact execConfigure_ends s
  | setparams h => exact execSetparams_ends h s
  | processPcm16 h => exact ⟨_, rfl, process_ends _ 0x02 h s rfl⟩
  | processPcmfloat h => exact ⟨_, rfl, process_ends _ 0x04 h s rfl⟩
  | processFmt fmt h => exact ⟨_, rfl, process_ends _ fmt h s rfl⟩
  | reset h => exact execReset_ends h s
  | release h => exact execRelease_ends h s
  | illegal w => exact ⟨_, rfl, .failed _ .illegalCommand nofun⟩

/-- The inversion of `exec`. -/
theorem commandEnds_of_exec {i : Instr} {s t : State} (hx : exec i s = .next t) : CommandEnds s i t := by
  obtain ⟨u, hu, hends⟩ := exec_ends i s
  rwa [Host.Outcome.next.inj (hx.symm.trans hu)]

/-! ### Status and fault (R221, R223) -/

/-- A command ends with the word of some status in STATUS, and adds that status's bit to FAULT (R223). -/
theorem CommandEnds.status_fault {s t : State} {i : Instr} (h : CommandEnds s i t) :
    ∃ e, t.status = statusWord e ∧ t.fault = s.fault ||| faultBit e := by
  have hok : s.fault = s.fault ||| faultBit .ok := BitVec.or_zero.symm
  cases h with
  | failed i e he => exact ⟨e, rfl, rfl⟩
  | configureFailed e he => exact ⟨e, rfl, rfl⟩
  | configured k sl hk hs => exact ⟨.ok, rfl, hok⟩
  | designed h sl hl hf => exact ⟨.ok, rfl, hok⟩
  | marked h sl hl => exact ⟨.numericInstability, rfl, rfl⟩
  | processed i fmt h sl hi hc => exact ⟨.ok, rfl, hok⟩
  | zeroed h sl hl => exact ⟨.ok, rfl, hok⟩
  | freed h sl hl => exact ⟨.ok, rfl, hok⟩

theorem statusWord_toNat_le (e : Status) : (statusWord e).toNat ≤ 6 := by cases e <;> decide

/-- Only OK has the word 0. -/
theorem statusWord_ne_zero {e : Status} (he : e ≠ .ok) : statusWord e ≠ 0 := by
  cases e with
  | ok => exact absurd rfl he
  | _ => decide

/-- Settles O42: a command always has an end, and each ends with the word of a status. -/
theorem everyCommandEndsWithStatus : Obligations.EveryCommandEndsWithStatus := by
  intro i s
  obtain ⟨t, hx, hends⟩ := exec_ends i s
  obtain ⟨e, hst, -⟩ := hends.status_fault
  exact ⟨t, hx, hst ▸ statusWord_toNat_le e⟩

/-- Settles O43: the FAULT bit a command adds is read back from its status word. -/
theorem faultBitFollowsStatus : Obligations.FaultBitFollowsStatus := by
  intro i s t hx
  obtain ⟨e, hst, hf⟩ := (commandEnds_of_exec hx).status_fault
  have hbit : faultBit e = if statusWord e = 4 then 1 else if statusWord e = 3 then 2 else if statusWord e = 5 then 4
      else 0 := by cases e <;> rfl
  rw [hf, hst, hbit]

/-! ### What no command writes (R22, R24, R38) -/

/-- Each end of a command keeps the platform, CMD, A0 to A5 and the model's own fields of the host's side. -/
theorem CommandEnds.keeps {s t : State} {i : Instr} (h : CommandEnds s i t) :
    t.plat = s.plat ∧ t.cmd = s.cmd
      ∧ [t.a0, t.a1, t.a2, t.a3, t.a4, t.a5] = [s.a0, s.a1, s.a2, s.a3, s.a4, s.a5]
      ∧ t.host = s.host ∧ t.readData = s.readData ∧ t.session = s.session
      ∧ t.written = s.written ∧ t.released = s.released := by
  cases h with
  | _ => exact ⟨rfl, rfl, rfl, rfl, rfl, rfl, rfl, rfl⟩

theorem CommandEnds.result_eq {s t : State} {i : Instr} (h : CommandEnds s i t) (hi : i ≠ .configure) :
    t.result = s.result := by
  cases h with
  | configureFailed e he => exact absurd rfl hi
  | configured k sl hk hs => exact absurd rfl hi
  | _ => rfl

/-- A well-formed row of PROCESS whose checks pass is one of a supported format (R77, R172). -/
theorem processOf_of_check {i : Instr} {fmt : BitVec 8} {h : Handle} {s : State} {sl : Slot}
    (hi : processRow i = some (fmt, h)) (hwf : i.wf = true) (hc : processCheck fmt h s = .ok sl) :
    ∃ w, processOf h i w := by
  cases i with
  | processPcm16 h' =>
    cases hi
    exact ⟨2, .inl ⟨rfl, rfl⟩⟩
  | processPcmfloat h' =>
    cases hi
    exact ⟨4, .inr ⟨rfl, rfl⟩⟩
  | processFmt f h' =>
    cases hi
    obtain ⟨-, -, -, -, hf, -⟩ := (processCheck_eq_ok fmt h s sl).1 hc
    simp only [fmtSupported, Bool.or_eq_true, beq_iff_eq] at hf
    simp only [Instr.wf, Bool.and_eq_true, bne_iff_ne] at hwf
    exact absurd hf (not_or.2 hwf)
  | _ => cases hi

theorem CommandEnds.mem_draws_eq {s t : State} {i : Instr} (h : CommandEnds s i t) (hwf : i.wf = true)
    (hno : ∀ h w, ¬ processOf h i w) : t.mem = s.mem ∧ t.draws = s.draws := by
  cases h with
  | processed i fmt h sl hi hc =>
    obtain ⟨w, hw⟩ := processOf_of_check hi hwf hc
    exact absurd hw (hno h w)
  | _ => exact ⟨rfl, rfl⟩

/-- Settles O44, field by field, from the frames of the ways a command ends. -/
theorem commandsWriteOnlyTheirState : Obligations.CommandsWriteOnlyTheirState := by
  intro i s t hwf hx
  have hends := commandEnds_of_exec hx
  obtain ⟨hplat, hcmd, hargs, hhost, hread, hsession, hwritten, hreleased⟩ := hends.keeps
  exact ⟨hplat, hcmd, hargs, hhost, hread, hsession, hwritten, hreleased, hends.result_eq, hends.mem_draws_eq hwf⟩

/-! ### The slots (R38, R233) -/

/-- The index of the slot a command may write: CONFIGURE's least FREE one, or its handle's. -/
def targetSlot (s : State) (i : Instr) : Option Nat :=
  match i with
  | .configure => freeSlot s
  | i => (handleOf i).map handleSlot

/-- How a command may change the slot it writes, from `x` to `y` (R38). -/
def slotStep : Instr → Slot → Slot → Prop
  | .configure, x, y => x.state = .free ∧ ∃ rate bpf, y = configuredSlot x rate bpf
  | .setparams _, x, y => y = { x with coef0 := y.coef0, coef1 := y.coef1, numFault := y.numFault }
  | .processPcm16 _, x, y => y = { x with hist0 := y.hist0, hist1 := y.hist1 }
  | .processPcmfloat _, x, y => y = { x with hist0 := y.hist0, hist1 := y.hist1 }
  | .processFmt _ _, x, y => y = { x with hist0 := y.hist0, hist1 := y.hist1 }
  | .reset _, x, y => y = { x with hist0 := y.hist0, hist1 := y.hist1 }
  | .release _, x, y => y = releasedSlot x
  | .illegal _, _, _ => False

/-- A row of PROCESS writes the slot its handle names, and histories there. -/
theorem slotStep_of_processRow {i : Instr} {fmt : BitVec 8} {h : Handle} (hi : processRow i = some (fmt, h)) (s : State)
    (x : Slot) (l r : Hist) :
    targetSlot s i = some (handleSlot h) ∧ slotStep i x { x with hist0 := l, hist1 := r } := by
  cases i with
  | processPcm16 h' =>
    cases hi
    exact ⟨rfl, rfl⟩
  | processPcmfloat h' =>
    cases hi
    exact ⟨rfl, rfl⟩
  | processFmt f h' =>
    cases hi
    exact ⟨rfl, rfl⟩
  | _ => cases hi

theorem getElem?_of_liveSlot {s : State} {h : Handle} {sl : Slot} (hl : liveSlot s h = some sl) :
    s.slots[handleSlot h]? = some sl :=
  ((liveSlot_eq_some s h sl).1 hl).2.1

/-- A command leaves the slot array as it is, or writes its target slot in the way of its row. -/
theorem CommandEnds.slots_cases {s t : State} {i : Instr} (h : CommandEnds s i t) :
    t.slots = s.slots ∨ ∃ k x y, targetSlot s i = some k ∧ s.slots[k]? = some x ∧ t.slots = s.slots.set k y ∧
      slotStep i x y := by
  cases h with
  | failed i e he => exact .inl rfl
  | configureFailed e he => exact .inl rfl
  | configured k sl hk hs =>
    obtain ⟨x, hx, hfree⟩ := getElem?_of_freeSlot hk
    obtain rfl : sl = x := Option.some.inj (hs.symm.trans hx)
    exact .inr ⟨k, sl, _, hk, hs, rfl, hfree, s.a0, s.a2, rfl⟩
  | designed h sl hl hf => exact .inr ⟨_, sl, _, rfl, getElem?_of_liveSlot hl, rfl, rfl⟩
  | marked h sl hl => exact .inr ⟨_, sl, _, rfl, getElem?_of_liveSlot hl, rfl, rfl⟩
  | processed i fmt h sl hi hc =>
    obtain ⟨hl, -⟩ := (processCheck_eq_ok fmt h s sl).1 hc
    obtain ⟨htarget, hstep⟩ := slotStep_of_processRow hi s sl (processLeft fmt sl s).2 (processRight fmt sl s).2
    exact .inr ⟨_, sl, _, htarget, getElem?_of_liveSlot hl, rfl, hstep⟩
  | zeroed h sl hl => exact .inr ⟨_, sl, _, rfl, getElem?_of_liveSlot hl, rfl, rfl⟩
  | freed h sl hl => exact .inr ⟨_, sl, _, rfl, getElem?_of_liveSlot hl, rfl, rfl⟩

theorem CommandEnds.slots_length {s t : State} {i : Instr} (h : CommandEnds s i t) :
    t.slots.length = s.slots.length := by
  obtain he | ⟨k, x, y, -, -, he, -⟩ := h.slots_cases <;> rw [he]
  exact List.length_set

/-- Any slot but the target keeps its contents. -/
theorem CommandEnds.getElem?_of_ne_target {s t : State} {i : Instr} (h : CommandEnds s i t) {j : Nat}
    (hj : targetSlot s i ≠ some j) : t.slots[j]? = s.slots[j]? := by
  obtain he | ⟨k, x, y, hk, -, he, -⟩ := h.slots_cases <;> rw [he]
  exact List.getElem?_set_ne fun e : k = j => hj (e ▸ hk)

/-- A slot keeps its contents, or is the target and changes in the way of the command's row. -/
theorem CommandEnds.slot_cases {s t : State} {i : Instr} (h : CommandEnds s i t) {j : Nat} {x y : Slot}
    (hx : s.slots[j]? = some x) (hy : t.slots[j]? = some y) :
    y = x ∨ (targetSlot s i = some j ∧ slotStep i x y) := by
  obtain he | ⟨k, x', y', hk, hx', he, hstep⟩ := h.slots_cases <;> rw [he] at hy
  · exact .inl (Option.some.inj (hy.symm.trans hx))
  by_cases hkj : k = j
  · subst hkj
    obtain rfl : x' = x := Option.some.inj (hx'.symm.trans hx)
    obtain ⟨hlt, -⟩ := List.getElem?_eq_some_iff.1 hx
    obtain rfl : y' = y := Option.some.inj ((List.getElem?_set_self hlt).symm.trans hy)
    exact .inr ⟨hk, hstep⟩
  · rw [List.getElem?_set_ne hkj] at hy
    exact .inl (Option.some.inj (hy.symm.trans hx))

/-- The least FREE slot is not LIVE, and no FREE slot is below it (R191). -/
theorem freeSlot_ne {s : State} {j : Nat} {sl : Slot} (hs : s.slots[j]? = some sl)
    (h : sl.state = .live ∨ ∃ k sk, k < j ∧ s.slots[k]? = some sk ∧ sk.state = .free) : freeSlot s ≠ some j := by
  intro hf
  obtain ⟨hj, hfree, hleast⟩ := (freeSlot_eq_some s j).1 hf
  obtain hlive | ⟨k, sk, hk, hsk, hkfree⟩ := h
  · obtain ⟨_, rfl⟩ := List.getElem?_eq_some_iff.1 hs
    rw [hfree] at hlive
    cases hlive
  · obtain ⟨_, rfl⟩ := List.getElem?_eq_some_iff.1 hsk
    rw [hleast k hk] at hkfree
    cases hkfree

/-- Settles O45: the slots named are none of them the command's target. -/
theorem otherSlotsUnchanged : Obligations.OtherSlotsUnchanged := by
  intro i s t hx
  have hends := commandEnds_of_exec hx
  refine ⟨hends.slots_length, fun j sl hs hj => ?_⟩
  rw [← hs]
  apply hends.getElem?_of_ne_target
  cases i with
  | configure => exact freeSlot_ne hs hj
  | illegal w => exact nofun
  | _ => exact fun he => hj (Option.some.inj he).symm

/-- Settles O46: the slot is unchanged, or `slotStep` says what its command writes. -/
theorem slotFieldsWrittenByTheirCommands : Obligations.SlotFieldsWrittenByTheirCommands := by
  intro i s t j x y hx hs ht
  obtain rfl | ⟨-, hstep⟩ := (commandEnds_of_exec hx).slot_cases hs ht
  · cases i with
    | release h => exact .inl rfl
    | _ => rfl
  · cases i with
    | configure =>
      obtain ⟨-, rate, bpf, rfl⟩ := hstep
      rfl
    | release h => exact .inr (congrArg Slot.gen (show y = releasedSlot x from hstep))
    | illegal w => exact hstep.elim
    | _ => exact hstep

end Sys2Proof.Machine
end

section
/-! PROOFS. An accepted PROCESS (43_stereo_adapter.md rules R160 to R166): the samples it reads, frame by frame, and the
bytes it writes. -/

namespace Sys2Proof.Machine

/-! ### Sizes (R161, R162) -/

theorem sampleWidth_cases (fmt : BitVec 8) : sampleWidth fmt = 2 ∨ sampleWidth fmt = 4 := by
  unfold sampleWidth
  split
  · exact .inl rfl
  · exact .inr rfl

/-- An accepted length is a whole number of stereo frames. -/
theorem processLen_eq_frames {w : Nat} {s : State} (hw : w = 2 ∨ w = 4) (ha : processAccepted w s) :
    processLen s = ((w * (2 * frameCount w s) : Nat) : Int) := by
  obtain ⟨-, ⟨-, hpos, -⟩, hwhole, heven, -⟩ := ha
  have hnonneg : 0 ≤ processLen s := by
    unfold processLen
    omega
  unfold frameCount
  obtain rfl | rfl := hw <;> omega

theorem sampleCount_eq_frames {w : Nat} {s : State} (hw : w = 2 ∨ w = 4) (ha : processAccepted w s) :
    sampleCount (viewsOf s) w = 2 * frameCount w s := by
  have hlen : viewsLen (viewsOf s) = ((w * (2 * frameCount w s) : Nat) : Int) := processLen_eq_frames hw ha
  rw [sampleCount, hlen]
  generalize frameCount w s = n
  obtain rfl | rfl := hw <;> omega

/-- The output run lies below the end of the data space (R51, R56). -/
theorem output_end_lt {w : Nat} {s : State} (hp : s.plat.wf = true) (hw : w = 2 ∨ w = 4) (ha : processAccepted w s) :
    s.a4.toNat + w * (2 * frameCount w s) < 2 ^ s.plat.addrBits := by
  have hlen := processLen_eq_frames hw ha
  obtain ⟨⟨-, -, -, -, -, hend⟩, -, -, -, hcap⟩ := ha
  obtain ⟨-, -, -, -, -, hmem⟩ := of_decide_eq_true hp
  omega

/-! ### The samples read (R163, R164) -/

theorem processInput_length (fmt : BitVec 8) {s : State} (ha : processAccepted (sampleWidth fmt) s) :
    (processInput fmt s).length = 2 * frameCount (sampleWidth fmt) s :=
  (readSamples_length _ _ _ _).trans (sampleCount_eq_frames (sampleWidth_cases fmt) ha)

/-- Sample `k` of the input of an accepted PROCESS. -/
theorem processInput_getElem? (fmt : BitVec 8) {s : State} (ha : processAccepted (sampleWidth fmt) s) {k : Nat}
    (hk : k < 2 * frameCount (sampleWidth fmt) s) :
    (processInput fmt s)[k]? =
      some (readLE s.mem (s.a0.toNat + s.a1.toNat + sampleWidth fmt * k) (sampleWidth fmt)) := by
  have hk' : k < sampleCount (viewsOf s) (sampleWidth fmt) := by
    rwa [sampleCount_eq_frames (sampleWidth_cases fmt) ha]
  have hpos : (viewsOf s).pos.toNat = s.a1.toNat := by
    obtain ⟨-, ⟨hpos, -⟩, -⟩ := ha
    have hmsb : s.a1.msb = false := by
      rw [BitVec.toInt_eq_msb_cond] at hpos
      by_contra hc
      rw [Bool.not_eq_false] at hc
      rw [hc, if_pos rfl] at hpos
      have := s.a1.isLt
      omega
    change s.a1.toInt.toNat = s.a1.toNat
    rw [BitVec.toInt_eq_toNat_of_msb hmsb, Int.toNat_natCast]
  rw [processInput, List.getElem?_eq_getElem (by simpa using hk'), readSamples_getElem _ _ _ _ _ hk', hpos]
  rfl

/-- A run of `n` samples is given by its entries. -/
theorem eq_map_range {xs : List Nat} {f : Nat → Nat} {n : Nat} (hlen : xs.length = n)
    (hget : ∀ j, j < n → xs[j]? = some (f j)) : xs = (List.range n).map f := by
  refine List.ext_getElem (by simpa using hlen) fun j hj _ => ?_
  obtain ⟨_, he⟩ := List.getElem?_eq_some_iff.1 (hget j (hlen ▸ hj))
  rw [he, List.getElem_map, List.getElem_range]

/-- The left run of an accepted PROCESS holds the left sample of each frame. -/
theorem leftRun_processInput (fmt : BitVec 8) {s : State} (ha : processAccepted (sampleWidth fmt) s) :
    leftRun (processInput fmt s) =
      (List.range (frameCount (sampleWidth fmt) s)).map (leftIn (sampleWidth fmt) s) := by
  have hlen := processInput_length fmt ha
  refine eq_map_range (by rw [leftRun_length]; omega) fun j hj => ?_
  rw [leftRun_getElem?, processInput_getElem? fmt ha (by omega), leftIn,
    show sampleWidth fmt * (2 * j) = 2 * sampleWidth fmt * j by ring]

/-- The right run of an accepted PROCESS holds the right sample of each frame. -/
theorem rightRun_processInput (fmt : BitVec 8) {s : State} (ha : processAccepted (sampleWidth fmt) s) :
    rightRun (processInput fmt s) =
      (List.range (frameCount (sampleWidth fmt) s)).map (rightIn (sampleWidth fmt) s) := by
  have hlen := processInput_length fmt ha
  refine eq_map_range (by rw [rightRun_length]; omega) fun j hj => ?_
  rw [rightRun_getElem?, processInput_getElem? fmt ha (by omega), rightIn, Nat.add_assoc _ (2 * _ * j),
    show sampleWidth fmt * (2 * j + 1) = 2 * sampleWidth fmt * j + sampleWidth fmt by ring]

/-! ### The samples written (R166) -/

/-- Output encodings fit their width, so that storing one loses nothing. -/
theorem channelFilter_lt (fmt : BitVec 8) (d : Nat) (c : Coef) (h : Hist) (run : List Nat) :
    ∀ v ∈ (channelFilter fmt d c h run).1, v < 256 ^ sampleWidth fmt := by
  unfold channelFilter sampleWidth
  split
  · intro v hv
    obtain ⟨k, -, rfl⟩ := List.mem_map.1 hv
    exact BitVec.isLt _
  · intro v hv
    obtain ⟨y, -, rfl⟩ := List.mem_map.1 hv
    exact BitVec.isLt _

theorem processLeft_length (fmt : BitVec 8) (sl : Slot) {s : State} (ha : processAccepted (sampleWidth fmt) s) :
    (processLeft fmt sl s).1.length = frameCount (sampleWidth fmt) s := by
  rw [processLeft, channelFilter_length, leftRun_processInput fmt ha, List.length_map, List.length_range]

theorem processRight_length (fmt : BitVec 8) (sl : Slot) {s : State} (ha : processAccepted (sampleWidth fmt) s) :
    (processRight fmt sl s).1.length = frameCount (sampleWidth fmt) s := by
  rw [processRight, channelFilter_length, rightRun_processInput fmt ha, List.length_map, List.length_range]

theorem interleave_process_length (fmt : BitVec 8) (sl : Slot) {s : State} (ha : processAccepted (sampleWidth fmt) s) :
    (interleave (processLeft fmt sl s).1 (processRight fmt sl s).1).length = 2 * frameCount (sampleWidth fmt) s := by
  have hlen := processLeft_length fmt sl ha
  rw [interleave_length _ _ (hlen.trans (processRight_length fmt sl ha).symm), hlen]

theorem processRun_mem (fmt : BitVec 8) (h : Handle) (sl : Slot) (s : State) :
    (processRun fmt h sl s).mem = writeSamples s.mem s.a4.toNat (sampleWidth fmt)
      (interleave (processLeft fmt sl s).1 (processRight fmt sl s).1) := rfl

/-- Sample `k` of the output view reads back the entry `j` of a channel's outputs that the interleaving puts there. -/
theorem readLE_processRun (fmt : BitVec 8) (h : Handle) (sl : Slot) {s : State} (hm : memWf s.mem = true) {j k : Nat}
    {out : List Nat} (hout : ∀ v ∈ out, v < 256 ^ sampleWidth fmt) (hj : j < out.length)
    (hk : (interleave (processLeft fmt sl s).1 (processRight fmt sl s).1)[k]? = out[j]?) :
    readLE (processRun fmt h sl s).mem (s.a4.toNat + sampleWidth fmt * k) (sampleWidth fmt) = out.getD j 0 := by
  rw [List.getElem?_eq_getElem hj] at hk
  obtain ⟨hlt, he⟩ := List.getElem?_eq_some_iff.1 hk
  rw [processRun_mem, readLE_writeSamples s.mem hm _ _ _ _ hlt, he, Nat.mod_eq_of_lt (hout _ (List.getElem_mem hj)),
    List.getD_eq_getElem _ _ hj]

/-- The left samples of the output view are the left channel's outputs. -/
theorem leftOut_processRun (fmt : BitVec 8) (h : Handle) (sl : Slot) {s : State} (hm : memWf s.mem = true)
    (ha : processAccepted (sampleWidth fmt) s) {j : Nat} (hj : j < frameCount (sampleWidth fmt) s) :
    leftOut (sampleWidth fmt) (processRun fmt h sl s).mem s.a4.toNat j = (processLeft fmt sl s).1.getD j 0 := by
  have hlen := processLeft_length fmt sl ha
  rw [leftOut, show 2 * sampleWidth fmt * j = sampleWidth fmt * (2 * j) by ring]
  exact readLE_processRun fmt h sl hm (channelFilter_lt fmt _ _ _ _) (hlen ▸ hj)
    (interleave_even _ _ (hlen.trans (processRight_length fmt sl ha).symm) j)

/-- The right samples of the output view are the right channel's outputs. -/
theorem rightOut_processRun (fmt : BitVec 8) (h : Handle) (sl : Slot) {s : State} (hm : memWf s.mem = true)
    (ha : processAccepted (sampleWidth fmt) s) {j : Nat} (hj : j < frameCount (sampleWidth fmt) s) :
    rightOut (sampleWidth fmt) (processRun fmt h sl s).mem s.a4.toNat j = (processRight fmt sl s).1.getD j 0 := by
  have hlen := processRight_length fmt sl ha
  rw [rightOut, Nat.add_assoc, show 2 * sampleWidth fmt * j + sampleWidth fmt = sampleWidth fmt * (2 * j + 1) by ring]
  exact readLE_processRun fmt h sl hm (channelFilter_lt fmt _ _ _ _) (hlen ▸ hj)
    (interleave_odd _ _ ((processLeft_length fmt sl ha).trans hlen.symm) j)

/-- The run writes no byte outside `[outBase, outBase + len)` (R56). -/
theorem readByte_processRun_of_outside (fmt : BitVec 8) (h : Handle) (sl : Slot) {s : State} (hm : memWf s.mem = true)
    (ha : processAccepted (sampleWidth fmt) s) {x : Nat}
    (hx : (x : Int) < s.a4.toNat ∨ (s.a4.toNat : Int) + processLen s ≤ x) :
    readByte (processRun fmt h sl s).mem x = readByte s.mem x := by
  rw [processRun_mem]
  apply readByte_writeSamples_of_outside s.mem hm
  rw [interleave_process_length fmt sl ha]
  rw [processLen_eq_frames (sampleWidth_cases fmt) ha] at hx
  omega

/-- The run keeps the data space canonical and within its address bits (R50). -/
theorem memSound_processRun (fmt : BitVec 8) (h : Handle) (sl : Slot) {s : State} (hp : s.plat.wf = true)
    (hm : memSound s.plat s.mem) (ha : processAccepted (sampleWidth fmt) s) :
    memSound s.plat (processRun fmt h sl s).mem := by
  obtain ⟨hwf, hbelow⟩ := hm
  have hend := output_end_lt hp (sampleWidth_cases fmt) ha
  rw [processRun_mem]
  refine ⟨memWf_writeSamples _ hwf _ _ _, cellsBelow_writeSamples _ _ _ ?_ hbelow⟩
  rw [interleave_process_length fmt sl ha]
  exact hend.le

/-! ### Accepted and rejected (R160, R161) -/

/-- The checks that PROCESS makes are the terms of `processAccepted`. -/
theorem accepted_of_check {fmt : BitVec 8} {h : Handle} {s : State} {sl : Slot} (hc : processCheck fmt h s = .ok sl) :
    processAccepted (sampleWidth fmt) s := by
  obtain ⟨-, -, hv, hr, -, hl⟩ := (processCheck_eq_ok fmt h s sl).1 hc
  exact ⟨(viewsOk_iff s).1 hv, (rangeOk_iff s).1 hr, (lengthOk_iff _ s).1 hl⟩

/-- An accepted PROCESS runs. -/
theorem process_of_accepted {fmt : BitVec 8} {h : Handle} {s : State} {sl : Slot} (hf : fmtSupported fmt = true)
    (hl : namesLive s h sl) (hn : sl.numFault = false) (ha : processAccepted (sampleWidth fmt) s) :
    process fmt h s = finish (processRun fmt h sl s) := by
  obtain ⟨hv, hr, hlen⟩ := ha
  exact process_of_ok ((processCheck_eq_ok fmt h s sl).2 ⟨(liveSlot_eq_some s h sl).2 hl, hn, (viewsOk_iff s).2 hv,
    (rangeOk_iff s).2 hr, hf, (lengthOk_iff _ s).2 hlen⟩)

/-- A supported row of PROCESS has one format, in every state. -/
theorem format_of_processOf {h : Handle} {i : Instr} {w : Nat} (hi : processOf h i w) :
    ∃ fmt, fmtSupported fmt = true ∧ sampleWidth fmt = w ∧ ∀ s, exec i s = .next (process fmt h s) := by
  obtain ⟨rfl, rfl⟩ | ⟨rfl, rfl⟩ := hi
  · exact ⟨0x02, rfl, rfl, fun _ => rfl⟩
  · exact ⟨0x04, rfl, rfl, fun _ => rfl⟩

/-- The slot of the instance after the run. -/
theorem processRun_getElem? (fmt : BitVec 8) {h : Handle} {sl : Slot} {s : State} (hl : namesLive s h sl) :
    (processRun fmt h sl s).slots[handleSlot h]? =
      some { sl with hist0 := (processLeft fmt sl s).2, hist1 := (processRight fmt sl s).2 } := by
  obtain ⟨-, hs, -⟩ := hl
  obtain ⟨hlt, -⟩ := List.getElem?_eq_some_iff.1 hs
  exact List.getElem?_set_self hlt

/-- Settles O32: the format is checked after the views and the range, and ends PROCESS.FMT<n> (O33). -/
theorem unsupportedFormatEnds : Obligations.UnsupportedFormatEnds := by
  intro s h sl fmt h2 h4 hl hn hv hr
  obtain ⟨-, hfmt, -⟩ := processRejectsBadArguments s h sl fmt hl hn
  exact hfmt h2 h4 hv hr

/-- Settles O36: a failed PROCESS writes no byte, and the run writes its output range alone. -/
theorem processWritesOnlyItsOutput : Obligations.ProcessWritesOnlyItsOutput := by
  intro s t h i w x hinv hi hx hout
  obtain ⟨fmt, -, rfl, hexec⟩ := format_of_processOf hi
  obtain rfl : process fmt h s = t := Host.Outcome.next.inj ((hexec s).symm.trans hx)
  obtain ⟨e, -, he⟩ | ⟨sl, hc, he⟩ := process_cases fmt h s
  · rw [he, raise_mem]
  · obtain ⟨hm, -⟩ := hinv.memory
    rw [he, finish_mem]
    exact readByte_processRun_of_outside fmt h sl hm (accepted_of_check hc) hout

end Sys2Proof.Machine
end

section
/-! PROOFS. What an accepted PROCESS computes (43_stereo_adapter.md rules R163 to R166, R173, R174): each channel's outputs
and history are its own filter's, on its own samples. -/

namespace Sys2Proof.Machine

/-- An accepted PROCESS writes the two channels' outputs frame by frame, both new histories and STATUS = OK, and nothing
else but the draw counter. -/
theorem process_accepted_spec {fmt : BitVec 8} {h : Handle} {s : State} {sl : Slot} (hm : memWf s.mem = true)
    (hf : fmtSupported fmt = true) (hl : namesLive s h sl) (hn : sl.numFault = false)
    (ha : processAccepted (sampleWidth fmt) s) :
    (∀ j, j < frameCount (sampleWidth fmt) s →
      leftOut (sampleWidth fmt) (process fmt h s).mem s.a4.toNat j = (processLeft fmt sl s).1.getD j 0 ∧
      rightOut (sampleWidth fmt) (process fmt h s).mem s.a4.toNat j = (processRight fmt sl s).1.getD j 0) ∧
    process fmt h s = { s with
      mem := (process fmt h s).mem
      draws := (process fmt h s).draws
      slots := s.slots.set (handleSlot h)
        { sl with hist0 := (processLeft fmt sl s).2, hist1 := (processRight fmt sl s).2 }
      status := 0 } := by
  rw [process_of_accepted hf hl hn ha, finish_mem]
  exact ⟨fun j hj => ⟨leftOut_processRun fmt h sl hm ha hj, rightOut_processRun fmt h sl hm ha hj⟩, rfl⟩

/-- The instance after an accepted PROCESS. -/
theorem process_accepted_slot {fmt : BitVec 8} {h : Handle} {s : State} {sl : Slot} (hf : fmtSupported fmt = true)
    (hl : namesLive s h sl) (hn : sl.numFault = false) (ha : processAccepted (sampleWidth fmt) s) :
    (process fmt h s).slots[handleSlot h]? =
      some { sl with hist0 := (processLeft fmt sl s).2, hist1 := (processRight fmt sl s).2 } := by
  rw [process_of_accepted hf hl hn ha, finish_slots]
  exact processRun_getElem? fmt hl

/-! ### The channels as filters on their samples (R163, R165) -/

/-- The left channel of an accepted PROCESS, on the left sample of each frame. -/
theorem processLeft_eq (fmt : BitVec 8) (sl : Slot) {s : State} (ha : processAccepted (sampleWidth fmt) s) :
    processLeft fmt sl s = channelFilter fmt s.draws sl.coef0 sl.hist0
      ((List.range (frameCount (sampleWidth fmt) s)).map (leftIn (sampleWidth fmt) s)) := by
  rw [processLeft, leftRun_processInput fmt ha]

/-- The right channel of an accepted PROCESS, on the right sample of each frame. -/
theorem processRight_eq (fmt : BitVec 8) (sl : Slot) {s : State} (ha : processAccepted (sampleWidth fmt) s) :
    processRight fmt sl s = channelFilter fmt (s.draws + drawsPerSample * frameCount (sampleWidth fmt) s) sl.coef1 sl.hist1
      ((List.range (frameCount (sampleWidth fmt) s)).map (rightIn (sampleWidth fmt) s)) := by
  rw [processRight, rightRun_processInput fmt ha, leftRun_processInput fmt ha, List.length_map, List.length_range]

theorem channelFilter_pcm16 (d : Nat) (c : Coef) (h : Hist) (n : Nat) (f : Nat → Nat) :
    channelFilter 0x02 d c h ((List.range n).map f) =
      ((filterI16 d c h ((List.range n).map fun j => (BitVec.ofNat 16 (f j)).toInt)).1.map
        (fun k => (BitVec.ofInt 16 k).toNat),
        (filterI16 d c h ((List.range n).map fun j => (BitVec.ofNat 16 (f j)).toInt)).2) := by
  rw [channelFilter, if_pos rfl, channelI16, List.map_map]
  rfl

theorem channelFilter_pcmfloat (d : Nat) (c : Coef) (h : Hist) (n : Nat) (f : Nat → Nat) :
    channelFilter 0x04 d c h ((List.range n).map f) =
      ((filterF32 d c h ((List.range n).map fun j => BitVec.ofNat 32 (f j))).1.map BitVec.toNat,
        (filterF32 d c h ((List.range n).map fun j => BitVec.ofNat 32 (f j))).2) := by
  rw [channelFilter, if_neg (by decide), channelF32, List.map_map]
  rfl

/-- Settles O34: the two channels of the run are FILTER_I16 on the samples as int16. -/
theorem pcm16FiltersBothChannels : Obligations.Pcm16FiltersBothChannels := by
  intro s h sl hinv hl hn ha
  obtain ⟨hm, -⟩ := hinv.memory
  obtain ⟨hout, heq⟩ := process_accepted_spec (fmt := 0x02) hm rfl hl hn ha
  rw [processLeft_eq 0x02 sl ha, processRight_eq 0x02 sl ha, channelFilter_pcm16, channelFilter_pcm16] at hout heq
  refine ⟨process 0x02 h s, _, _, rfl, fun j hj => ?_, heq⟩
  obtain ⟨hleft, hright⟩ := hout j hj
  have hmap := fun ks : List Int => List.getD_map ks 0 (n := j) fun k => (BitVec.ofInt 16 k).toNat
  exact ⟨hleft.trans (hmap _), hright.trans (hmap _)⟩

/-- Settles O35: the two channels of the run are FILTER_F32 on the samples as encodings. -/
theorem pcmfloatFiltersBothChannels : Obligations.PcmfloatFiltersBothChannels := by
  intro s h sl hinv hl hn ha
  obtain ⟨hm, -⟩ := hinv.memory
  obtain ⟨hout, heq⟩ := process_accepted_spec (fmt := 0x04) hm rfl hl hn ha
  rw [processLeft_eq 0x04 sl ha, processRight_eq 0x04 sl ha, channelFilter_pcmfloat, channelFilter_pcmfloat] at hout heq
  refine ⟨process 0x04 h s, _, _, rfl, fun j hj => ?_, heq⟩
  obtain ⟨hleft, hright⟩ := hout j hj
  have hmap := fun ys : List F32 => List.getD_map ys 0 (n := j) BitVec.toNat
  exact ⟨hleft.trans (hmap _), hright.trans (hmap _)⟩

/-! ### Independence of the channels, of the output view, and of equal channels (R61, R173, R174) -/

/-- Settles O39: a channel's run is a function of its own samples, and the right channel's draw numbers depend on how
many frames there are alone. -/
theorem channelsAreIndependent : Obligations.ChannelsAreIndependent := by
  intro s t t' m h sl i w hinv hwf hi hl hn ha hx hx'
  obtain ⟨hm, -⟩ := hinv.memory
  obtain ⟨fmt, hf, rfl, hexec⟩ := format_of_processOf hi
  obtain rfl : process fmt h s = t := Host.Outcome.next.inj ((hexec s).symm.trans hx)
  obtain rfl : process fmt h { s with mem := m } = t' := Host.Outcome.next.inj ((hexec _).symm.trans hx')
  have ha' : processAccepted (sampleWidth fmt) { s with mem := m } := ha
  obtain ⟨hout, -⟩ := process_accepted_spec hm hf hl hn ha
  obtain ⟨hout', -⟩ := process_accepted_spec (s := { s with mem := m }) hwf hf hl hn ha'
  rw [process_accepted_slot hf hl hn ha, process_accepted_slot (s := { s with mem := m }) hf hl hn ha']
  constructor
  · intro hin
    have hrun : processLeft fmt sl s = processLeft fmt sl { s with mem := m } := by
      rw [processLeft_eq fmt sl ha, processLeft_eq fmt sl ha']
      exact congrArg _ (List.map_congr_left fun j hj => hin j (List.mem_range.1 hj))
    refine ⟨fun j hj => ?_, congrArg (fun r : List Nat × Hist => some r.2) hrun⟩
    rw [(hout j hj).1, hrun, ← (hout' j hj).1]
  · intro hin
    have hrun : processRight fmt sl s = processRight fmt sl { s with mem := m } := by
      rw [processRight_eq fmt sl ha, processRight_eq fmt sl ha']
      exact congrArg _ (List.map_congr_left fun j hj => hin j (List.mem_range.1 hj))
    refine ⟨fun j hj => ?_, congrArg (fun r : List Nat × Hist => some r.2) hrun⟩
    rw [(hout j hj).2, hrun, ← (hout' j hj).2]

/-- Settles O41: the samples are all read before the first write, so that neither channel's run looks at the output
view. -/
theorem overlapChangesNothing : Obligations.OverlapChangesNothing := by
  intro s t t' b c h sl i w hinv hi hl hn ha ha' hx hx'
  obtain ⟨hm, -⟩ := hinv.memory
  obtain ⟨fmt, hf, rfl, hexec⟩ := format_of_processOf hi
  obtain rfl : process fmt h s = t := Host.Outcome.next.inj ((hexec s).symm.trans hx)
  obtain rfl : process fmt h { s with a4 := b, a5 := c } = t' := Host.Outcome.next.inj ((hexec _).symm.trans hx')
  obtain ⟨hout, heq⟩ := process_accepted_spec hm hf hl hn ha
  obtain ⟨hout', heq'⟩ := process_accepted_spec (s := { s with a4 := b, a5 := c }) hm hf hl hn ha'
  refine ⟨fun j hj => ⟨?_, ?_⟩, ?_⟩
  · exact (hout j hj).1.trans (hout' j hj).1.symm
  · exact (hout j hj).2.trans (hout' j hj).2.symm
  · rw [heq, heq']
    rfl

/-- A float channel without a NaN output reads no draw (O48). -/
theorem channelF32_of_not_nan {d : Nat} {c : Coef} {h : Hist} {run : List Nat}
    (hnan : ∀ v ∈ (channelF32 d c h run).1, isNaN32 (BitVec.ofNat 32 v) = false) (d' : Nat) :
    channelF32 d' c h run = channelF32 d c h run := by
  have hy : ∀ y ∈ (filterF32 d c h (run.map (BitVec.ofNat 32))).1, isNaN32 y = false := by
    intro y hy
    have hv := hnan y.toNat (List.mem_map_of_mem hy)
    rwa [BitVec.ofNat_toNat, BitVec.setWidth_eq] at hv
  simp only [channelF32, filterF32_of_not_nan _ d d' h hy]

/-- Two channels of one section, on one run from one history, are equal if no left output is a NaN. -/
theorem processRight_eq_processLeft {sl : Slot} {s : State} (ha : processAccepted 4 s) (hc : sl.coef0 = sl.coef1)
    (hh : sl.hist0 = sl.hist1) (hin : ∀ j, j < frameCount 4 s → leftIn 4 s j = rightIn 4 s j)
    (hnan : ∀ v ∈ (processLeft 0x04 sl s).1, isNaN32 (BitVec.ofNat 32 v) = false) :
    processRight 0x04 sl s = processLeft 0x04 sl s := by
  have hrun : (List.range (frameCount 4 s)).map (rightIn 4 s) = (List.range (frameCount 4 s)).map (leftIn 4 s) :=
    List.map_congr_left fun j hj => (hin j (List.mem_range.1 hj)).symm
  rw [processLeft_eq 0x04 sl ha] at hnan ⊢
  rw [processRight_eq 0x04 sl ha, ← hc, ← hh]
  exact (congrArg (channelF32 _ _ _) hrun).trans (channelF32_of_not_nan hnan _)

/-- Settles O40: no left output is a NaN, so that the right channel, on the same run, reads no draw either. -/
theorem equalChannelsStayEqual : Obligations.EqualChannelsStayEqual := by
  intro s t h sl hinv hl hn ha hh hin hx hnan
  obtain rfl : process 0x04 h s = t := Host.Outcome.next.inj hx
  obtain ⟨hm, -⟩ := hinv.memory
  have ⟨_, hs, _⟩ := hl
  obtain ⟨hc, -⟩ := hinv.slots sl (List.mem_of_getElem? hs)
  obtain ⟨hout, -⟩ := process_accepted_spec (fmt := 0x04) hm rfl hl hn ha
  have hrun : processRight 0x04 sl s = processLeft 0x04 sl s := by
    refine processRight_eq_processLeft ha hc hh hin fun y hy => ?_
    obtain ⟨j, hj, rfl⟩ := List.getElem_of_mem hy
    have hj' : j < frameCount 4 s := (processLeft_length 0x04 sl ha) ▸ hj
    rw [← List.getD_eq_getElem _ 0 hj, ← (hout j hj').1]
    exact hnan j hj'
  refine ⟨fun j hj => ?_, _, process_accepted_slot (fmt := 0x04) rfl hl hn ha, congrArg Prod.snd hrun.symm⟩
  exact (hout j hj).1.trans ((congrArg (fun r => r.1.getD j 0) hrun.symm).trans (hout j hj).2.symm)

end Sys2Proof.Machine
end

section
/-! PROOFS. The invariant (10_state.md rules R23 to R29, 20_memory.md rule R50, 44_lifecycle.md rule R199): each operation
on the state keeps it, and so every command and every step does. -/

namespace Sys2Proof.Machine

/-! ### The operations on the state -/

theorem or_faultBit_toNat_le {f : Word} (hf : f.toNat ≤ 7) (e : Status) : (f ||| faultBit e).toNat ≤ 7 := by
  have hbit : (faultBit e).toNat < 2 ^ 3 := by cases e <;> decide
  have hor : f.toNat ||| (faultBit e).toNat < 2 ^ 3 := Nat.or_lt_two_pow (by omega) hbit
  rw [BitVec.toNat_or]
  omega

theorem State.Inv.raise {s : State} (h : s.Inv) (e : Status) : (raise e s).Inv :=
  { h with status := statusWord_toNat_le e, fault := or_faultBit_toNat_le h.fault e }

theorem State.Inv.finish {s : State} (h : s.Inv) : (finish s).Inv :=
  { h with status := statusWord_toNat_le .ok }

theorem State.Inv.withResult {s : State} (h : s.Inv) {w : Word} (hw : resultSound w) : State.Inv { s with result := w } :=
  { h with result := hw }

theorem State.Inv.withMem {s : State} (h : s.Inv) {m : List Host.Cell} (hm : memSound s.plat m) (n : Nat) :
    State.Inv { s with mem := m, draws := n } :=
  { h with memory := hm }

theorem State.Inv.setSlot {s : State} (h : s.Inv) {i : Nat} {sl : Slot} (hs : slotSound sl)
    (hsign : s.plat.designer = .reference → someSignClear sl.coef0) : (setSlot s i sl).Inv where
  platform := h.platform
  slotCount := List.length_set.trans h.slotCount
  slots := fun x hx => by
    obtain hmem | rfl := List.mem_or_eq_of_mem_set hx
    · exact h.slots x hmem
    · exact hs
  signs := fun hd x hx => by
    obtain hmem | rfl := List.mem_or_eq_of_mem_set hx
    · exact h.signs hd x hmem
    · exact hsign hd
  memory := h.memory
  status := h.status
  fault := h.fault
  result := h.result
  written := h.written
  released := h.released

/-! ### The slots commands write -/

theorem slotSound_of_live {sl : Slot} (hlive : sl.state = .live) (hc : sl.coef0 = sl.coef1)
    (hf : coefFinite sl.coef0 = true) : slotSound sl :=
  ⟨hc, hf, fun hfree => by rw [hlive] at hfree; cases hfree⟩

/-- Writing a LIVE slot's mark and histories keeps its coefficients, and they stay sound (R29, R105). -/
theorem State.Inv.setSlot_live {s : State} (h : s.Inv) {hd : Handle} {sl : Slot} (hl : liveSlot s hd = some sl)
    (n : Bool) (l r : Hist) (i : Nat) : (Machine.setSlot s i { sl with numFault := n, hist0 := l, hist1 := r }).Inv := by
  have hmem := liveSlot_mem s hd sl hl
  obtain ⟨-, -, hlive, -⟩ := (liveSlot_eq_some s hd sl).1 hl
  obtain ⟨hc, hf, -⟩ := h.slots sl hmem
  exact h.setSlot (slotSound_of_live hlive hc hf) fun hr => h.signs hr sl hmem

theorem coefFinite_zero : coefFinite Coef.zero = true := by decide

theorem coefFinite_neutral : coefFinite Coef.neutral = true := by decide

theorem someSignClear_zero : someSignClear Coef.zero := .inl (by decide)

theorem someSignClear_neutral : someSignClear Coef.neutral := .inl (by decide)

theorem slotSound_releasedSlot (sl : Slot) : slotSound (releasedSlot sl) := ⟨rfl, coefFinite_zero, fun _ => rfl⟩

theorem slotSound_configuredSlot (sl : Slot) (rate bpf : Word) : slotSound (configuredSlot sl rate bpf) :=
  slotSound_of_live rfl rfl coefFinite_neutral

/-- A finite design of REF64 has not all of its coefficients negative (R102, R103). -/
theorem someSignClear_designOf {s : State} (hr : s.plat.designer = .reference)
    (hf : coefFinite (designOf s) = true) : someSignClear (designOf s) := by
  have href : designOf s = ref64 21 (sint32 s.a0) s.a1 s.a2 s.a3 := by
    simp only [designOf, design, hr]
    rfl
  rw [href] at hf ⊢
  exact someSignClear_ref64 hf

/-- RESULT as CONFIGURE writes it has no bit above 15 (R24). -/
theorem result_high_half (hd : Handle) : ((0 : BitVec 16) ++ hd).extractLsb' 16 16 = 0 :=
  BitVec.extractLsb'_append_eq_left

/-- Every end of a command keeps the invariant. -/
theorem CommandEnds.inv {s t : State} {i : Instr} (h : CommandEnds s i t) (hinv : s.Inv) : t.Inv := by
  cases h with
  | failed i e he => exact hinv.raise e
  | configureFailed e he => exact (hinv.withResult (.inl rfl)).raise e
  | configured k sl hk hs =>
    exact ((hinv.setSlot (slotSound_configuredSlot sl _ _) fun _ => someSignClear_neutral).withResult
      (.inr (result_high_half _))).finish
  | designed h sl hl hf =>
    obtain ⟨-, -, hlive, -⟩ := (liveSlot_eq_some s h sl).1 hl
    exact (hinv.setSlot (sl := installed sl (designOf s)) (slotSound_of_live hlive rfl hf) fun hr =>
      someSignClear_designOf hr hf).finish
  | marked h sl hl => exact (hinv.setSlot_live hl true sl.hist0 sl.hist1 _).raise _
  | processed i fmt h sl hi hc =>
    obtain ⟨hl, -⟩ := (processCheck_eq_ok fmt h s sl).1 hc
    have hm := memSound_processRun fmt h sl hinv.platform hinv.memory (accepted_of_check hc)
    exact (State.Inv.setSlot_live (hinv.withMem hm _) (hd := h) hl sl.numFault _ _ _).finish
  | zeroed h sl hl => exact (hinv.setSlot_live hl sl.numFault Hist.zero Hist.zero _).finish
  | freed h sl hl => exact (hinv.setSlot (slotSound_releasedSlot sl) fun _ => someSignClear_zero).finish

/-! ### The host's accesses -/

/-- Issuing a command records its handle once: a recorded one is no longer live (R256 H6). -/
theorem releasedAfter_nodup {i : Instr} {s : State} (hn : s.released.Nodup) (hstale : namesStale i s = false) :
    (releasedAfter i s).Nodup := by
  cases i with
  | release h =>
    simp only [releasedAfter]
    split
    · next hl =>
      refine List.nodup_cons.2 ⟨fun hm => ?_, hn⟩
      rw [(namesStale_iff (.release h) s).2 ⟨h, rfl, hm, hl⟩] at hstale
      cases hstale
    · exact hn
  | _ => exact hn

theorem State.Inv.issue {s : State} (h : s.Inv) (agent : Nat) {w : Word} (hd : commandDuty (decode w) s = none) :
    (issue agent w s).Inv := by
  obtain ⟨-, hstale⟩ := (commandDuty_eq_none _ s).1 hd
  exact { h with released := releasedAfter_nodup h.released hstale }

/-- `writeArg` changes A0 to A5 alone (R22). -/
theorem writeArg_frame (s : State) (off : Nat) (v : Word) :
    writeArg s off v = { s with
      a0 := (writeArg s off v).a0, a1 := (writeArg s off v).a1, a2 := (writeArg s off v).a2
      a3 := (writeArg s off v).a3, a4 := (writeArg s off v).a4, a5 := (writeArg s off v).a5 } := by
  unfold writeArg
  split
  all_goals rfl

/-- A register write at another offset than CMD's writes A0 to A5 and the duty monitor alone. -/
theorem argWrite_frame (agent off : Nat) (v : Word) (s : State) :
    argWrite agent off v s = { s with
      a0 := (argWrite agent off v s).a0, a1 := (argWrite agent off v s).a1, a2 := (argWrite agent off v s).a2
      a3 := (argWrite agent off v s).a3, a4 := (argWrite agent off v s).a4, a5 := (argWrite agent off v s).a5
      session := (argWrite agent off v s).session, written := (argWrite agent off v s).written } := by
  unfold argWrite
  split
  · rw [writeArg_frame]
  · rfl

theorem argIndex_lt {off : Nat} (h : isArgOffset off = true) : (off - 4) / 4 < 6 := by
  have hb : 4 ≤ off ∧ off ≤ 24 := of_decide_eq_true h
  omega

theorem State.Inv.argWrite {s : State} (h : s.Inv) (agent off : Nat) (v : Word) : (argWrite agent off v s).Inv := by
  unfold Machine.argWrite
  split
  · next ha =>
    obtain ⟨hnodup, hlt⟩ := h.written
    have hwritten : (s.written.insert ((off - 4) / 4)).Nodup ∧ ∀ k ∈ s.written.insert ((off - 4) / 4), k < 6 := by
      refine ⟨hnodup.insert, fun k hk => ?_⟩
      obtain rfl | hk := List.mem_insert_iff.1 hk
      · exact argIndex_lt ha
      · exact hlt k hk
    rw [writeArg_frame]
    exact { h with written := hwritten }
  · exact h

theorem memSound_writeByte {p : Platform} {m : List Host.Cell} (hm : memSound p m) {a : Nat} (ha : a < 2 ^ p.addrBits)
    (v : Byte) : memSound p (writeByte m a v) := by
  obtain ⟨hwf, hbelow⟩ := hm
  exact ⟨memWf_writeByte m hwf a v, cellsBelow_writeByte a v ha hbelow⟩

theorem inv_resetOn {p : Platform} (hp : p.wf = true) : (State.resetOn p).Inv where
  platform := hp
  slotCount := List.length_replicate
  slots := fun sl hsl => by
    obtain rfl := List.eq_of_mem_replicate hsl
    exact ⟨rfl, coefFinite_zero, fun _ => rfl⟩
  signs := fun _ sl hsl => by
    obtain rfl := List.eq_of_mem_replicate hsl
    exact someSignClear_zero
  memory := ⟨rfl, nofun⟩
  status := Nat.zero_le 6
  fault := Nat.zero_le 7
  result := .inr BitVec.extractLsb'_zero
  written := ⟨List.nodup_nil, nofun⟩
  released := List.nodup_nil

theorem State.Inv.powerOnReset {s : State} (h : s.Inv) : (powerOnReset s).Inv :=
  { inv_resetOn h.platform with memory := h.memory }

theorem State.Inv.withHost {s : State} (h : s.Inv) (rest : List HostEvent) : State.Inv { s with host := rest } :=
  { h with }

/-- A register write that answers a next state keeps the invariant and the platform. -/
theorem State.Inv.busWrite {s t : State} (h : s.Inv) {agent addr width : Nat} {v : Word}
    (hx : busWrite agent addr width v s = .next t) : t.Inv ∧ t.plat = s.plat := by
  obtain ⟨-, -, ⟨-, hd, hexec⟩ | ⟨-, rfl⟩⟩ := busWrite_cases hx
  · have hends := commandEnds_of_exec hexec
    obtain ⟨hplat, -⟩ := hends.keeps
    exact ⟨hends.inv (h.issue agent hd), hplat⟩
  · refine ⟨h.argWrite agent _ v, ?_⟩
    rw [argWrite_frame]

/-- Settles O14, by the kinds of step: each host access keeps the invariant, and a CMD write runs its command from a
state that meets it. -/
theorem stepKeepsInvariant : Obligations.StepKeepsInvariant := by
  intro s t hinv hx
  obtain ⟨-, rfl⟩ | ⟨agent, addr, width, rest, -, hr⟩ | ⟨agent, addr, width, v, rest, -, hw⟩ |
    ⟨addr, v, rest, -, haddr, rfl⟩ | ⟨rest, -, rfl⟩ := step_cases hx
  · exact ⟨hinv, rfl⟩
  · obtain ⟨-, rfl⟩ := busRead_cases hr
    exact ⟨{ hinv with }, rfl⟩
  · exact (hinv.withHost rest).busWrite hw
  · exact ⟨{ hinv with memory := memSound_writeByte hinv.memory haddr v }, rfl⟩
  · exact ⟨(hinv.withHost rest).powerOnReset, rfl⟩

/-- Settles O13: the reset state has its values by definition, and no slot of it is LIVE. -/
theorem resetMeetsInvariant : Obligations.ResetMeetsInvariant := by
  refine ⟨fun p hp => ⟨inv_resetOn hp, powerOnValues_resetOn p, rfl, fun sl hsl => ?_⟩, inv_resetOn (by decide)⟩
  rw [List.eq_of_mem_replicate hsl]
  rfl

end Sys2Proof.Machine
end

section
/-! PROOFS. The data space as its readers see it (20_memory.md rule R50): one byte written, and one canonical form for each
data space. -/

namespace Sys2Proof.Machine

theorem step_dataWrite {s : State} {a : Nat} {v : Byte} {rest : List HostEvent} (hh : s.host = .dataWrite a v :: rest) :
    step s = hostDataWrite a v { s with host := rest } := by
  simp only [step, hh, hostEvent]

/-- Settles O16: a write below `2 ^ ADDR_BITS` is `writeByte`, and any other faults. -/
theorem dataWriteChangesOneByte : Obligations.DataWriteChangesOneByte := by
  intro s a v rest hinv hh
  obtain ⟨hm, -⟩ := hinv.memory
  rw [step_dataWrite hh]
  refine ⟨fun hlt => ⟨{ s with host := rest, mem := writeByte s.mem a v }, if_pos hlt, rfl, fun x => ?_⟩,
    fun hge => if_neg (Nat.not_lt.2 hge)⟩
  simp only [readByte_writeByte s.mem hm, eq_comm (a := a)]

theorem readByte_cons_self (a : Nat) (b : Byte) (m : List Host.Cell) : readByte ((a, b) :: m) a = b := if_pos rfl

theorem readByte_cons_of_ne {a x : Nat} (b : Byte) (m : List Host.Cell) (h : a ≠ x) :
    readByte ((a, b) :: m) x = readByte m x := if_neg h

/-- A data space that lists `a` first reads otherwise there than one whose cells all lie above `a`. -/
theorem readByte_ne_of_above {a : Nat} {b : Byte} {m m' : List Host.Cell} (hm : memWf ((a, b) :: m) = true)
    (ha : cellsAbove a m') : readByte ((a, b) :: m) a ≠ readByte m' a := by
  obtain ⟨hb, -, -⟩ := (memWf_cons a b m).1 hm
  rw [readByte_cons_self, readByte_below m' a a ha le_rfl]
  exact hb

theorem cellsAbove_cons {a k : Nat} {b : Byte} {m : List Host.Cell} (hm : memWf ((k, b) :: m) = true) (h : a < k) :
    cellsAbove a ((k, b) :: m) := by
  obtain ⟨-, hk, -⟩ := (memWf_cons k b m).1 hm
  intro c hc
  obtain rfl | hc := List.mem_cons.1 hc
  · exact h
  · exact h.trans (hk c hc)

/-- Settles O17, by induction on the cells: the first addresses agree, since the lower of two would be listed in one data
space only. -/
theorem equalReadsEqualMemories : Obligations.EqualReadsEqualMemories := by
  intro m
  induction m with
  | nil =>
    intro m' _ hm' hr
    cases m' with
    | nil => rfl
    | cons c rest => exact absurd (hr c.1).symm (readByte_ne_of_above hm' nofun)
  | cons c rest ih =>
    intro m' hm hm' hr
    obtain ⟨a, b⟩ := c
    cases m' with
    | nil => exact absurd (hr a) (readByte_ne_of_above hm nofun)
    | cons c' rest' =>
      obtain ⟨a', b'⟩ := c'
      obtain hlt | rfl | hgt := lt_trichotomy a a'
      · exact absurd (hr a) (readByte_ne_of_above hm (cellsAbove_cons hm' hlt))
      · obtain ⟨-, habove, hrest⟩ := (memWf_cons a b rest).1 hm
        obtain ⟨-, habove', hrest'⟩ := (memWf_cons a b' rest').1 hm'
        have hb : b = b' := by
          have := hr a
          rwa [readByte_cons_self, readByte_cons_self] at this
        rw [hb, ih rest' hrest hrest' fun x => ?_]
        by_cases hx : x ≤ a
        · rw [readByte_below rest a x habove hx, readByte_below rest' a x habove' hx]
        · have := hr x
          rwa [readByte_cons_of_ne _ _ (by omega), readByte_cons_of_ne _ _ (by omega)] at this
      · exact absurd (hr a').symm (readByte_ne_of_above hm' (cellsAbove_cons hm hgt))

end Sys2Proof.Machine
end

section
/-! PROOFS. The register bus (10_state.md rule R39) and the duties of its users (70_reset_and_hazards.md rule R256). -/

namespace Sys2Proof.Machine

/-! ### Accesses of the window -/

/-- A 32-bit access at an aligned offset of the window is well-formed (R39). -/
theorem accessError_of_aligned (s : State) {off : Nat} (hlt : off < 0x40) (hal : off % 4 = 0) :
    accessError s (s.plat.regBase + off) 32 = none := by
  rw [accessError, if_neg (by omega), if_neg (by omega)]

/-- Any other access within the window is refused. -/
theorem accessError_of_malformed (s : State) {off width : Nat} (hlt : off < 0x40) (hbad : width ≠ 32 ∨ off % 4 ≠ 0) :
    accessError s (s.plat.regBase + off) width = some .busAccess := by
  rw [accessError, if_neg (by omega), if_pos (by rwa [Nat.add_sub_cancel_left])]

/-- A well-formed access by the host: its address is not below the window. -/
theorem regBase_le_of_accessError {s : State} {addr width : Nat} (h : accessError s addr width = none) :
    s.plat.regBase ≤ addr := by
  unfold accessError at h
  split_ifs at h with h1
  omega

section
variable {s : State} {agent off : Nat} {v : Word} {rest : List HostEvent}

theorem step_regRead (hh : s.host = .regRead agent (s.plat.regBase + off) 32 :: rest) (hlt : off < 0x40)
    (hal : off % 4 = 0) :
    step s = .next { s with
      host := rest, readData := some (readReg s off), session := sessionAfterRead s.session agent off } := by
  have ha := accessError_of_aligned { s with host := rest } hlt hal
  simp only [step, hh, hostEvent, busRead, ha, Nat.add_sub_cancel_left]
  rfl

theorem step_regWrite_of_duty {r : Refusal} (hh : s.host = .regWrite agent (s.plat.regBase + off) 32 v :: rest)
    (hlt : off < 0x40) (hal : off % 4 = 0) (hd : dutyError s agent off = some r) : step s = .refused r := by
  have ha := accessError_of_aligned { s with host := rest } hlt hal
  have hd' : dutyError { s with host := rest } agent off = some r := hd
  simp only [step, hh, hostEvent, busWrite, ha, Nat.add_sub_cancel_left, hd']

theorem step_regWrite (hh : s.host = .regWrite agent (s.plat.regBase + off) 32 v :: rest) (hlt : off < 0x40)
    (hal : off % 4 = 0) (hd : dutyError s agent off = none) (h0 : off ≠ 0) :
    step s = .next (argWrite agent off v { s with host := rest }) := by
  have ha := accessError_of_aligned { s with host := rest } hlt hal
  have hd' : dutyError { s with host := rest } agent off = none := hd
  simp only [step, hh, hostEvent, busWrite, ha, Nat.add_sub_cancel_left, hd', if_neg h0]

end

/-- Settles O10: the width and the alignment are looked at before anything else of the access. -/
theorem malformedAccessesRefused : Obligations.MalformedAccessesRefused := by
  intro s agent off width v rest hlt hbad hh
  have ha := accessError_of_malformed { s with host := rest } hlt hbad
  obtain hh | hh := hh
  · simp only [step, hh, hostEvent, busRead, ha]
  · simp only [step, hh, hostEvent, busWrite, ha]

/-! ### Reads (R21, R23, R25, R26) -/

/-- A register that fits the bits a read keeps reads as it is. -/
theorem and_mask_eq_self {w mask : Word} (n : Nat) (hmask : mask.toNat = 2 ^ n - 1) (hw : w.toNat < 2 ^ n) :
    w &&& mask = w := by
  apply BitVec.eq_of_toNat_eq
  rw [BitVec.toNat_and, hmask, Nat.and_two_pow_sub_one_of_lt_two_pow hw]

theorem caps_eq_ofNat {s : State} (hp : s.plat.wf = true) : caps s = BitVec.ofNat 32 s.plat.nSlots := by
  obtain ⟨-, hn, -⟩ := of_decide_eq_true hp
  apply BitVec.eq_of_toNat_eq
  simp only [caps, BitVec.toNat_append, BitVec.toNat_ofNat, BitVec.ofNat_eq_ofNat, Nat.zero_mod, Nat.zero_shiftLeft,
    Nat.zero_or]
  omega

/-- The sixteen offsets of the window, read from a sound state (R21). -/
theorem readReg_eq_getD {s : State} (h : s.Inv) {k : Nat} (hk : k < 16) :
    readReg s (4 * k) = [s.cmd, s.a0, s.a1, s.a2, s.a3, s.a4, s.a5, s.status, s.result, s.fault,
      BitVec.ofNat 32 s.plat.nSlots].getD k 0 := by
  have hstatus : statusRead s.status = s.status := and_mask_eq_self 8 rfl (by have := h.status; omega)
  have hfault : faultRead s.fault = s.fault := and_mask_eq_self 3 rfl (by have := h.fault; omega)
  have hcaps := caps_eq_ofNat h.platform
  interval_cases k <;> simp [readReg, hstatus, hfault, hcaps]

theorem sessionAfterRead_eq (ss : Session) (agent k : Nat) :
    sessionAfterRead ss agent (4 * k) = if k = 7 ∧ ss = .due agent then .idle else ss := by
  have hoff : 4 * k = 0x1C ↔ k = 7 := by omega
  simp only [sessionAfterRead, hoff]

/-- Settles O7: the read has no side effect but on the last read value and the duty monitor. -/
theorem registerReadsReturnValues : Obligations.RegisterReadsReturnValues := by
  intro s agent k rest hinv hk hh
  rw [step_regRead hh (by omega) (by omega), readReg_eq_getD hinv hk, sessionAfterRead_eq]

/-! ### Writes (R22, R39, R256 H1 and H2) -/

theorem isArgOffset_iff (off : Nat) : isArgOffset off = true ↔ 4 ≤ off ∧ off ≤ 0x18 := decide_eq_true_iff

/-- The agent whose turn it is breaks no duty by a write at another offset than an argument's; nor does it at an
argument's, unless its own STATUS is unread. -/
theorem dutyError_eq_none {s : State} {agent off : Nat}
    (hs : s.session = .idle ∨ s.session = .args agent ∨ (s.session = .due agent ∧ isArgOffset off = false)) :
    dutyError s agent off = none := by
  obtain h | h | ⟨h, ho⟩ := hs
  · simp only [dutyError, h]
  · simp only [dutyError, h, if_true]
  · simp only [dutyError, h, ne_eq, not_true, if_false, ho, Bool.false_eq_true]

theorem dutyError_h1 {s : State} {agent off : Nat} (hs : s.session = .due agent) (ho : isArgOffset off = true) :
    dutyError s agent off = some .dutyH1 := by
  simp only [dutyError, hs, ne_eq, not_true, if_false, ho, if_true]

theorem dutyError_h2 {s : State} {agent other off : Nat} (hne : other ≠ agent)
    (hs : s.session = .args other ∨ s.session = .due other) : dutyError s agent off = some .dutyH2 := by
  obtain h | h := hs
  · simp only [dutyError, h, if_neg hne]
  · simp only [dutyError, h, if_pos hne]

/-- Settles O8: the write reaches `writeArg`, whose six offsets store in A0 to A5. -/
theorem argumentWritesStore : Obligations.ArgumentWritesStore := by
  intro s agent k v rest hk hs hh
  rw [Nat.add_assoc] at hh
  have harg : isArgOffset (4 + 4 * k) = true := (isArgOffset_iff _).2 (by omega)
  have hindex : (4 + 4 * k - 4) / 4 = k := by omega
  have hd : dutyError s agent (4 + 4 * k) = none := dutyError_eq_none (hs.imp_right .inl)
  refine ⟨_, step_regWrite hh (by omega) (by omega) hd (by omega), ?_, ?_⟩
  · rw [argWrite, if_pos harg]
    interval_cases k <;> rfl
  · rw [argWrite, if_pos harg, hindex, writeArg_frame]

/-- Settles O9: no argument register is at the offset, and the other offsets ignore a write. -/
theorem readOnlyWritesIgnored : Obligations.ReadOnlyWritesIgnored := by
  intro s agent k v rest h7 hk hs hh
  have harg : isArgOffset (4 * k) = false := by
    rw [← Bool.not_eq_true, isArgOffset_iff]
    omega
  have hd : dutyError s agent (4 * k) = none := dutyError_eq_none (hs.imp_right (.imp_right fun h => ⟨h, harg⟩))
  rw [step_regWrite hh (by omega) (by omega) hd (by omega), argWrite, harg]
  rfl

/-- Settles O11: both duties are looked at before the write is. -/
theorem brokenDutiesRefused : Obligations.BrokenDutiesRefused := by
  intro s agent k v rest hk hh
  refine ⟨fun hs h1 h6 => ?_, fun other hne hs => ?_⟩
  · exact step_regWrite_of_duty hh (by omega) (by omega) (dutyError_h1 hs ((isArgOffset_iff _).2 (by omega)))
  · exact step_regWrite_of_duty hh (by omega) (by omega) (dutyError_h2 hne hs)

/-! ### Steps that run a command, and steps that do not (R25, R70) -/

/-- Every step but a power-on reset leaves the slots, FAULT and the record of released handles as they are, or is a CMD
write that runs its command. -/
theorem step_quiet_or_command {s t : State} (hno : ∀ rest, s.host ≠ .powerOnReset :: rest) (hx : step s = .next t) :
    (t.slots = s.slots ∧ t.fault = s.fault ∧ t.released = s.released) ∨
      ∃ agent width w rest, s.host = .regWrite agent s.plat.regBase width w :: rest ∧
        exec (decode w) (issue agent w { s with host := rest }) = .next t := by
  obtain ⟨-, rfl⟩ | ⟨agent, addr, width, rest, -, hr⟩ | ⟨agent, addr, width, w, rest, hh, hw⟩ |
    ⟨addr, v, rest, -, -, rfl⟩ | ⟨rest, hh, -⟩ := step_cases hx
  · exact .inl ⟨rfl, rfl, rfl⟩
  · obtain ⟨-, rfl⟩ := busRead_cases hr
    exact .inl ⟨rfl, rfl, rfl⟩
  · obtain ⟨ha, -, ⟨h0, -, hexec⟩ | ⟨-, rfl⟩⟩ := busWrite_cases hw
    · have hle : s.plat.regBase ≤ addr := regBase_le_of_accessError (s := { s with host := rest }) ha
      obtain rfl : addr = s.plat.regBase := le_antisymm (Nat.sub_eq_zero_iff_le.1 h0) hle
      exact .inr ⟨agent, width, w, rest, hh, hexec⟩
    · rw [argWrite_frame]
      exact .inl ⟨rfl, rfl, rfl⟩
  · exact .inl ⟨rfl, rfl, rfl⟩
  · exact absurd hh (hno rest)

theorem and_or_self (a b : Word) : a &&& (a ||| b) = a := by
  apply BitVec.eq_of_getLsbD_eq
  intro i _
  rw [BitVec.getLsbD_and, BitVec.getLsbD_or]
  exact inf_sup_self

/-- Settles O15: a command adds bits to FAULT (R223), and no other step but a power-on reset writes it. -/
theorem faultBitsSticky : Obligations.FaultBitsSticky := by
  intro s t hno hx
  obtain ⟨-, hf, -⟩ | ⟨agent, width, w, rest, -, hexec⟩ := step_quiet_or_command hno hx
  · rw [hf, BitVec.and_self]
  · obtain ⟨e, -, hf⟩ := (commandEnds_of_exec hexec).status_fault
    rw [hf, issue_fault, and_or_self]

end Sys2Proof.Machine
end

section
/-! PROOFS. The issue of a command (30_encoding.md rule R70) under the duties H1 and H6 (70_reset_and_hazards.md rule R256),
and the record of released handles (44_lifecycle.md rule R200). -/

namespace Sys2Proof.Machine

theorem isSome_liveSlot_iff (s : State) (h : Handle) : (liveSlot s h).isSome = true ↔ ∃ sl, namesLive s h sl := by
  simp only [Option.isSome_iff_exists, liveSlot_eq_some]

/-- What the record holds once a command is issued: a RELEASE of a live handle adds it. -/
theorem mem_releasedAfter_iff (i : Instr) (s : State) (h : Handle) :
    h ∈ releasedAfter i s ↔ h ∈ s.released ∨ (i = .release h ∧ ∃ sl, namesLive s h sl) := by
  cases i with
  | release g =>
    rw [releasedAfter, ← isSome_liveSlot_iff]
    by_cases hl : (liveSlot s g).isSome = true
    · rw [if_pos hl, List.mem_cons, or_comm]
      refine or_congr_right ⟨?_, fun ⟨e, _⟩ => (Instr.release.inj e).symm⟩
      rintro rfl
      exact ⟨rfl, hl⟩
    · rw [if_neg hl]
      refine ⟨.inl, fun hm => hm.resolve_right fun ⟨e, hlive⟩ => hl ?_⟩
      rwa [Instr.release.inj e]
  | _ => simp [releasedAfter]

/-- Whether a handle is recorded and live again, in the words of the claims (R256 H6). -/
theorem namesStale_iff_namesLive (i : Instr) (s : State) :
    namesStale i s = true ↔ ∃ h sl, handleOf i = some h ∧ h ∈ s.released ∧ namesLive s h sl := by
  simp only [namesStale_iff, isSome_liveSlot_iff, exists_and_left]

/-- Both duties of a command are kept. -/
theorem commandDuty_eq_none_of {i : Instr} {s : State} (ha : argsWritten i s)
    (hstale : ∀ h sl, handleOf i = some h → h ∈ s.released → ¬ namesLive s h sl) : commandDuty i s = none := by
  refine (commandDuty_eq_none i s).2 ⟨(argsReady_iff i s).2 ha, Bool.eq_false_of_not_eq_true fun hc => ?_⟩
  obtain ⟨h, sl, hi, hm, hl⟩ := (namesStale_iff_namesLive i s).1 hc
  exact hstale h sl hi hm hl

/-- The first half of H1 is looked at first. -/
theorem commandDuty_of_unwritten {i : Instr} {s : State} (ha : ¬ argsWritten i s) : commandDuty i s = some .dutyH1 := by
  have hready : argsReady i s = false := Bool.eq_false_of_not_eq_true (mt (argsReady_iff i s).1 ha)
  simp only [commandDuty, hready, Bool.not_false, if_true]

theorem commandDuty_of_stale {i : Instr} {s : State} (ha : argsWritten i s)
    (hstale : ∃ h sl, handleOf i = some h ∧ h ∈ s.released ∧ namesLive s h sl) :
    commandDuty i s = some .dutyH6 := by
  have hready : argsReady i s = true := (argsReady_iff i s).2 ha
  have hnames : namesStale i s = true := (namesStale_iff_namesLive i s).2 hstale
  simp only [commandDuty, hready, hnames, Bool.not_true, Bool.false_eq_true, if_false, if_true]

theorem cmdWrite_of_refused {agent : Nat} {w : Word} {s : State} {r : Refusal} (hd : commandDuty (decode w) s = some r) :
    cmdWrite agent w s = .refused r := by
  simp only [cmdWrite, hd]

theorem cmdWrite_of_duties {agent : Nat} {w : Word} {s : State} (hd : commandDuty (decode w) s = none) :
    cmdWrite agent w s = exec (decode w) (issue agent w s) := by
  simp only [cmdWrite, hd]

/-- Settles O5: `issue` notes the word, the agent and, after a RELEASE, the handle. -/
theorem stepRunsIssuedCommand : Obligations.StepRunsIssuedCommand := by
  intro s agent w rest hh hs ha hstale
  have hd : commandDuty (decode w) { s with host := rest } = none :=
    commandDuty_eq_none_of (s := { s with host := rest }) ha fun h sl hi hm hl => hstale h hi hm sl hl
  refine ⟨releasedAfter (decode w) s, mem_releasedAfter_iff (decode w) s, ?_⟩
  exact (step_cmdWrite hh hs).trans (cmdWrite_of_duties hd)

/-- The agent of a CMD write that `withFetchWord` makes is the one whose turn it is. -/
theorem cmdAgent_turn (s : State) :
    s.session = .idle ∨ s.session = .args (cmdAgent s) ∨ s.session = .due (cmdAgent s) := by
  unfold cmdAgent
  cases s.session with
  | idle => exact .inl rfl
  | args a => exact .inr (.inl rfl)
  | due a => exact .inr (.inr rfl)

/-- Settles O6: `withFetchWord` puts a CMD write in front, whose duties `dutiesMet` meets. -/
theorem fetchWordStepRuns : Obligations.FetchWordStepRuns := by
  intro s nbits w i hi
  obtain ⟨v, hv, rfl⟩ := Option.map_eq_some_iff.1 hi
  have hfetch : s.withFetchWord nbits w = { dutiesMet (decode v) s with host := cmdEvent s v :: s.host } := by
    simp only [State.withFetchWord, hv]
  refine ⟨v, issue (cmdAgent s) v { dutiesMet (decode v) s with host := s.host }, rfl, rfl, ?_⟩
  have hturn := cmdAgent_turn s
  rw [hfetch, step_cmdWrite (s := { dutiesMet (decode v) s with host := cmdEvent s v :: s.host }) rfl hturn]
  exact cmdWrite_of_duties (commandDuty_dutiesMet (decode v) s)

/-- Settles O54: the two duties of a command in their order, and a command that keeps both answers a next state (O42). -/
theorem unpreparedCommandsRefused : Obligations.UnpreparedCommandsRefused := by
  intro s agent w rest hh hs
  rw [step_cmdWrite hh hs]
  refine ⟨fun hargs => cmdWrite_of_refused ?_, fun hargs hstale => cmdWrite_of_refused ?_, fun hargs hfresh => ?_⟩
  · exact commandDuty_of_unwritten (s := { s with host := rest }) hargs
  · exact commandDuty_of_stale (s := { s with host := rest }) hargs hstale
  · have hd : commandDuty (decode w) { s with host := rest } = none :=
      commandDuty_eq_none_of (s := { s with host := rest }) hargs hfresh
    rw [cmdWrite_of_duties hd]
    obtain ⟨t, ht, -⟩ := exec_ends (decode w) (issue agent w { s with host := rest })
    exact ⟨t, ht⟩

/-! ### The record of released handles (R200) -/

/-- A CMD write that answers a next state kept its duties and ran its command. -/
theorem exec_of_step_cmdWrite {s t : State} {agent : Nat} {w : Word} {rest : List HostEvent}
    (hh : s.host = .regWrite agent s.plat.regBase 32 w :: rest) (hx : step s = .next t) :
    commandDuty (decode w) s = none ∧ exec (decode w) (issue agent w { s with host := rest }) = .next t := by
  have hw : busWrite agent s.plat.regBase 32 w { s with host := rest } = .next t := by
    rw [← hx]
    simp only [step, hh, hostEvent]
  obtain ⟨-, -, ⟨-, hd, hexec⟩ | ⟨h0, -⟩⟩ := busWrite_cases hw
  · exact ⟨hd, hexec⟩
  · exact absurd (Nat.sub_self _) h0

/-- Every step but a power-on reset keeps the record. -/
theorem mem_released_of_step {s t : State} {h : Handle} (hm : h ∈ s.released)
    (hno : ∀ rest, s.host ≠ .powerOnReset :: rest) (hx : step s = .next t) : h ∈ t.released := by
  obtain ⟨-, -, hrel⟩ | ⟨agent, width, w, rest, -, hexec⟩ := step_quiet_or_command hno hx
  · exact hrel ▸ hm
  · obtain ⟨-, -, -, -, -, -, -, hrel⟩ := (commandEnds_of_exec hexec).keeps
    rw [hrel]
    exact mem_releasedAfter _ { s with host := rest } h hm

/-- A RELEASE that ends with OK named a live instance: an absent handle ends with USE_AFTER_RELEASE. -/
theorem namesLive_of_release_ok {s t : State} {h : Handle} (hx : exec (.release h) s = .next t) (hst : t.status = 0) :
    ∃ sl, namesLive s h sl := by
  by_contra hno
  rw [exec_of_absent (.release h) h s rfl fun sl hl => hno ⟨sl, hl⟩] at hx
  obtain rfl := Host.Outcome.next.inj hx
  exact statusWord_ne_zero (e := .useAfterRelease) nofun hst

/-- An absent handle is not recorded again. -/
theorem releasedAfter_of_absent {i : Instr} {h : Handle} {s : State} (hi : handleOf i = some h) (ha : absentHandle s h) :
    releasedAfter i s = s.released := by
  cases i with
  | release g =>
    cases hi
    simp only [releasedAfter, (liveSlot_eq_none s h).2 ha, Option.isSome_none, Bool.false_eq_true, if_false]
  | _ => rfl

/-- Settles O55: duty H6 lets a command that names a recorded handle run only while the handle is absent. -/
theorem recordedHandleNeverActsAgain : Obligations.RecordedHandleNeverActsAgain := by
  intro s t hx
  refine ⟨fun h hm hno => mem_released_of_step hm hno hx, fun agent w rest h hh => ?_⟩
  obtain ⟨hd, hexec⟩ := exec_of_step_cmdWrite hh hx
  constructor
  · intro hw hst
    obtain ⟨-, -, -, -, -, -, -, hrel⟩ := (commandEnds_of_exec hexec).keeps
    rw [hw] at hexec
    have hlive := namesLive_of_release_ok hexec hst
    rw [hrel]
    exact (mem_releasedAfter_iff (decode w) s h).2 (.inr ⟨hw, hlive⟩)
  · intro hhandle hm
    have habsent : absentHandle s h := by
      intro sl hl
      have hstale := (namesStale_iff_namesLive (decode w) s).2 ⟨h, sl, hhandle, hm, hl⟩
      obtain ⟨-, hfresh⟩ := (commandDuty_eq_none _ s).1 hd
      rw [hfresh] at hstale
      cases hstale
    have hrel : releasedAfter (decode w) { s with host := rest } = s.released := releasedAfter_of_absent hhandle habsent
    have huar := exec_of_absent (decode w) h (issue agent w { s with host := rest }) hhandle habsent
    rw [← Host.Outcome.next.inj (huar.symm.trans hexec), issue, hrel]
    rfl

end Sys2Proof.Machine
end

section
/-! PROOFS. The life of a handle (44_lifecycle.md rules R190 to R200): CONFIGURE's handle names its instance, and a
released one stays absent. -/

namespace Sys2Proof.Machine

/-- Settles O22: `designOf` is the design of the statement, and the slot is marked (R107). -/
theorem setparamsNonFiniteMarksInstance : Obligations.SetparamsNonFiniteMarksInstance := by
  intro s h sl hlive hn hf
  exact execSetparams_of_not_finite ((liveSlot_eq_some s h sl).2 hlive) hn hf

/-- Settles O26: `raise .numericInstability` writes status code 3 and bit 1 of FAULT alone (R223). -/
theorem faultedInstanceEndsNumericInstability : Obligations.FaultedInstanceEndsNumericInstability := by
  intro s h sl fmt i hlive hn hi
  exact exec_of_faulted ((liveSlot_eq_some s h sl).2 hlive) hn hi

/-! ### Handles (R24, R28) -/

theorem handleSlot_mkHandle (gen : BitVec 8) {k : Nat} (hk : k < 256) : handleSlot (mkHandle gen k) = k := by
  rw [handleSlot, mkHandle, BitVec.extractLsb'_append_eq_right, BitVec.toNat_ofNat]
  exact Nat.mod_eq_of_lt hk

@[simp] theorem handleGen_mkHandle (gen : BitVec 8) (k : Nat) : handleGen (mkHandle gen k) = gen :=
  BitVec.extractLsb'_append_eq_left

/-- A CONFIGURE that ends with OK has made an instance in a slot of the array, and RESULT is its handle. -/
theorem configured_of_ok {s t : State} (hx : exec .configure s = .next t) (hst : t.status = 0) :
    ∃ k sl, s.slots[k]? = some sl ∧ t.plat = s.plat ∧
      t.slots[k]? = some (configuredSlot sl s.a0 s.a2) ∧ t.result = (0 : BitVec 16) ++ mkHandle sl.gen k := by
  cases commandEnds_of_exec hx with
  | failed i e he => exact absurd hst (statusWord_ne_zero he)
  | configureFailed e he => exact absurd hst (statusWord_ne_zero he)
  | configured k sl hk hs =>
    obtain ⟨hlt, -⟩ := List.getElem?_eq_some_iff.1 hs
    exact ⟨k, sl, hs, rfl, List.getElem?_set_self hlt, rfl⟩
  | processed i fmt h sl hi hc => cases hi

/-- Slot indices fit a handle (R7, R28). -/
theorem slot_lt_256 {s : State} (hinv : s.Inv) {k : Nat} {sl : Slot} (hs : s.slots[k]? = some sl) :
    k < s.plat.nSlots ∧ k < 256 := by
  obtain ⟨hlt, -⟩ := List.getElem?_eq_some_iff.1 hs
  obtain ⟨-, hn, -⟩ := of_decide_eq_true hinv.platform
  have hcount := hinv.slotCount
  omega

/-- Settles O20: the handle names the slot CONFIGURE took, whose generation it kept. -/
theorem configuredHandleIsLive : Obligations.ConfiguredHandleIsLive := by
  intro s t hinv hx hst
  obtain ⟨k, sl, hs, hplat, ht, hres⟩ := configured_of_ok hx hst
  obtain ⟨hn, h256⟩ := slot_lt_256 hinv hs
  have hlow : t.result.extractLsb' 0 16 = mkHandle sl.gen k := by
    rw [hres]
    exact BitVec.extractLsb'_append_eq_right
  refine ⟨hres ▸ result_high_half _, configuredSlot sl s.a0 s.a2, ?_, rfl⟩
  rw [hlow, namesLive, handleSlot_mkHandle _ h256, handleGen_mkHandle, hplat]
  exact ⟨hn, ht, rfl, rfl⟩

/-! ### After a RELEASE (R199, R200) -/

theorem absentHandle_of_generationMoved {s : State} {h : Handle} (hg : generationMoved s h) : absentHandle s h := by
  rintro sl ⟨-, hs, -, hgen⟩
  obtain ⟨x, hx, hne⟩ := hg
  obtain rfl : sl = x := Option.some.inj (hs.symm.trans hx)
  exact hne hgen

/-- A RELEASE that ends with OK advances the generation, which is then not the handle's (R32). -/
theorem generationMoved_of_release_ok {s t : State} {h : Handle} (hx : exec (.release h) s = .next t)
    (hst : t.status = 0) : generationMoved t h := by
  obtain ⟨sl, hlive⟩ := namesLive_of_release_ok hx hst
  have hl := (liveSlot_eq_some s h sl).2 hlive
  obtain ⟨-, hs, -, hgen⟩ := hlive
  obtain ⟨hlt, -⟩ := List.getElem?_eq_some_iff.1 hs
  obtain rfl := Host.Outcome.next.inj ((execRelease_of_live hl).symm.trans hx)
  refine ⟨releasedSlot sl, List.getElem?_set_self hlt, ?_⟩
  rw [← hgen]
  change sl.gen + 1 ≠ sl.gen
  simp

/-- Only RELEASE writes a generation (R38). -/
theorem slotStep_gen {i : Instr} {x y : Slot} (h : slotStep i x y) (hi : ∀ g, i ≠ .release g) : y.gen = x.gen := by
  cases i with
  | configure =>
    obtain ⟨-, rate, bpf, rfl⟩ := h
    rfl
  | release g => exact absurd rfl (hi g)
  | illegal w => exact h.elim
  | _ => exact (congrArg Slot.gen h :)

/-- A command other than a RELEASE of the slot leaves the slot's generation as it was. -/
theorem CommandEnds.generationMoved {s t : State} {i : Instr} {h : Handle} (hends : CommandEnds s i t)
    (hg : generationMoved s h) (hi : ∀ g, i = .release g → handleSlot g ≠ handleSlot h) : generationMoved t h := by
  obtain ⟨x, hx, hne⟩ := hg
  obtain ⟨hlt, -⟩ := List.getElem?_eq_some_iff.1 hx
  have hy := List.getElem?_eq_getElem (hends.slots_length ▸ hlt : handleSlot h < t.slots.length)
  refine ⟨_, hy, ?_⟩
  obtain he | ⟨htarget, hstep⟩ := hends.slot_cases hx hy
  · rwa [he]
  · rwa [slotStep_gen hstep]
    rintro g rfl
    exact hi g rfl (Option.some.inj htarget)

/-- Every step but a power-on reset and a RELEASE of the slot keeps the generation moved on. -/
theorem generationMoved_of_step {s t : State} {h : Handle} (hg : generationMoved s h)
    (hno : ∀ rest, s.host ≠ .powerOnReset :: rest)
    (hrel : ∀ agent width w rest g, s.host = .regWrite agent s.plat.regBase width w :: rest → decode w = .release g →
      handleSlot g ≠ handleSlot h) (hx : step s = .next t) : generationMoved t h := by
  obtain ⟨hslots, -⟩ | ⟨agent, width, w, rest, hh, hexec⟩ := step_quiet_or_command hno hx
  · rwa [generationMoved, hslots]
  · exact (commandEnds_of_exec hexec).generationMoved hg fun g hd => hrel agent width w rest g hh hd

/-- Settles O29: RELEASE moves the generation on, only a RELEASE of the slot moves it again, and a handle of another
generation is absent (O25). -/
theorem releasedHandleIsAbsent : Obligations.ReleasedHandleIsAbsent := by
  intro h
  refine ⟨fun s t hx hst => generationMoved_of_release_ok hx hst,
    fun s t hg hno hrel hx => generationMoved_of_step hg hno hrel hx, fun s fmt i hg hi => ?_⟩
  exact absentHandleEndsUseAfterRelease s h fmt i (absentHandle_of_generationMoved hg) hi

/-- Settles O30: the handle names a live instance (O20), and the released one no longer does (O29). -/
theorem reusedSlotGetsNewHandle : Obligations.ReusedSlotGetsNewHandle := by
  intro s t u h hinv hrel hst hconf hsu heq
  obtain ⟨-, sl, hlive, -⟩ := configuredHandleIsLive t u ((commandEnds_of_exec hrel).inv hinv) hconf hsu
  have hmoved := (commandEnds_of_exec hconf).generationMoved (generationMoved_of_release_ok hrel hst) nofun
  exact absentHandle_of_generationMoved hmoved sl (heq ▸ hlive)

end Sys2Proof.Machine
end

section
/-! PROOFS. The arithmetic on finite operands (00_scope.md rule R10): the exact sum, product and quotient, and one rounding
of any size of exact result, overflow included. -/

namespace Sys2Proof.Machine

/-! ### The exact results -/

/-- `v` is a finite number, with a denominator that is not 0, of value `x`. -/
def IsExact (v : FpVal) (x : ℚ) : Prop := ∃ n a c e, v = .rat n a c e ∧ 0 < c ∧ fpRat v = x

theorem isExact_val32 {b : F32} (h : isFinite32 b = true) : IsExact (val32 b) (rat32 b) := by
  obtain ⟨a, e, hv, -, -⟩ := val32_of_finite h
  exact ⟨b.msb, a, 1, e, hv, one_pos, fpRat_val32 h⟩

/-- A number is its signed numerator in units of `2 ^ e / c`. -/
theorem isExact_rat {n : Bool} {a c : Nat} {e : Int} {x : ℚ} (hc : 0 < c)
    (hx : ((if n then -(a : ℤ) else a : ℤ) : ℚ) * (2 ^ e / c) = x) : IsExact (.rat n a c e) x := by
  refine ⟨n, a, c, e, rfl, hc, ?_⟩
  rw [← hx, fpRat]
  cases n <;> simp <;> ring

/-- `numAdd` of two numbers is exact: over the common unit it adds integers of like sign and subtracts the smaller of
unlike ones. -/
theorem isExact_numAdd {v w : FpVal} {x y : ℚ} (hv : IsExact v x) (hw : IsExact w y) :
    IsExact (numAdd v w) (x + y) := by
  obtain ⟨n, a, d, e, rfl, hd, rfl⟩ := hv
  obtain ⟨m, b, c, f, rfl, hc, rfl⟩ := hw
  have hx := fpRat_eq_mul_unit n (a := a) hd hc (min_le_left e f)
  have hy := fpRat_eq_mul_unit m (a := b) hc hd (min_le_right e f)
  rw [mul_comm (c : ℚ)] at hy
  rw [hx, hy]
  simp only [numAdd]
  generalize a * c * 2 ^ (e - min e f).toNat = X
  generalize b * d * 2 ^ (f - min e f).toNat = Y
  have hpos : 0 < d * c := Nat.mul_pos hd hc
  rw [← Nat.cast_mul, ← add_mul]
  by_cases hnm : n = m
  · rw [if_pos hnm, hnm]
    refine isExact_rat hpos (congrArg (· * _) ?_)
    cases m <;> simp
    ring
  obtain rfl : m = !n := Bool.eq_not.2 (Ne.symm hnm)
  rw [if_neg hnm]
  by_cases hxy : X = Y
  · rw [if_pos hxy, hxy]
    refine isExact_rat hpos (congrArg (· * _) ?_)
    cases n <;> simp
  rw [if_neg hxy]
  by_cases hlt : Y < X
  · rw [if_pos hlt]
    refine isExact_rat hpos (congrArg (· * _) ?_)
    cases n <;> simp [Nat.cast_sub hlt.le] <;> ring
  · rw [if_neg hlt]
    refine isExact_rat hpos (congrArg (· * _) ?_)
    cases n <;> simp [Nat.cast_sub (not_lt.1 hlt)] <;> ring

/-- `numMul` of two numbers is exact. -/
theorem isExact_numMul {v w : FpVal} {x y : ℚ} (hv : IsExact v x) (hw : IsExact w y) :
    IsExact (numMul v w) (x * y) := by
  obtain ⟨n, a, d, e, rfl, hd, rfl⟩ := hv
  obtain ⟨m, b, c, f, rfl, hc, rfl⟩ := hw
  refine ⟨_, _, _, _, rfl, Nat.mul_pos hd hc, ?_⟩
  simp only [numMul, fpRat]
  push_cast
  rw [zpow_add₀ two_ne_zero]
  cases n <;> cases m <;> simp <;> field_simp

/-- `numDiv` by a number that is not 0 is exact. -/
theorem isExact_numDiv {v w : FpVal} {x y : ℚ} (hv : IsExact v x) (hw : IsExact w y) (hy : y ≠ 0) :
    IsExact (numDiv v w) (x / y) := by
  obtain ⟨n, a, d, e, rfl, hd, rfl⟩ := hv
  obtain ⟨m, b, c, f, rfl, hc, rfl⟩ := hw
  have hb : b ≠ 0 := by
    rintro rfl
    simp [fpRat] at hy
  refine ⟨_, _, _, _, if_neg hb, Nat.mul_pos hd (Nat.pos_of_ne_zero hb), fpRat_numDiv n m a d b c e f hb⟩

/-! ### One rounding of an exact result -/

/-- A nearest integer to a number at most half a unit below an even `N` is `N` or more: `N - 1` is odd. -/
theorem IsNearestInt.natCast_le_of_half {t : ℚ} {k N : ℕ} (h : IsNearestInt t k) (hN : Even N)
    (ht : (N : ℚ) - 1 / 2 ≤ t) : N ≤ k := by
  obtain ⟨hle, heven⟩ := h
  rw [Int.cast_natCast] at hle heven
  by_contra hlt
  have hk : (k : ℚ) + 1 ≤ N := by exact_mod_cast not_le.1 hlt
  have hge := (abs_le.1 hle).1
  have htie : |(k : ℚ) - t| = 1 / 2 := by
    rw [abs_of_nonpos (by linarith)]
    linarith
  have hkN : k + 1 = N := by
    have : (k : ℚ) + 1 = N := by linarith
    exact_mod_cast this
  have hek : Even k := (Int.even_coe_nat k).1 (heven htie)
  rw [← hkN] at hN
  exact (Nat.even_add_one.1 hN) hek

/-- From the overflow bound on the magnitude rounds to the encoding of ∞: in the largest unit to the integer `2 ^ 24`,
which carries, and in a larger unit in any case. -/
theorem roundMag_of_overflow {a c : Nat} {e : Int} (hc : 0 < c) (hov : overflow32 ≤ (a : ℚ) / c * 2 ^ e) :
    roundMag binary32 a c e = fmtInf binary32 := by
  have hpos : (0 : ℚ) < a / c * 2 ^ e := lt_of_lt_of_le (by norm_num [overflow32]) hov
  have ha : a ≠ 0 := by
    rintro rfl
    simp at hpos
  obtain ⟨hq, hlt, hge⟩ := unitExp_spec binary32 e (Nat.pos_of_ne_zero ha) hc
  rw [mul_two_zpow_sub] at hlt hge
  change -149 ≤ _ at hq
  change _ < (2 : ℚ) ^ 24 at hlt
  change -149 < _ → (2 : ℚ) ^ 24 ≤ _ at hge
  have hnear := isNearestInt_divNearestEven (scaleFrac a c (e - unitExp binary32 a c e)).1
    (scaleFrac a c (e - unitExp binary32 a c e)).2 (scaleFrac_den_pos _ hc)
  rw [scaleFrac_eq, mul_two_zpow_sub] at hnear
  simp only [roundMag, if_neg ha]
  generalize divNearestEven (scaleFrac a c (e - unitExp binary32 a c e)).1
    (scaleFrac a c (e - unitExp binary32 a c e)).2 = k at hnear
  generalize unitExp binary32 a c e = q at *
  generalize (a : ℚ) / c * 2 ^ e = x at *
  refine min_eq_left ?_
  change fmtInf binary32 ≤ (q - -149).toNat * 2 ^ 23 + k
  rw [fmtInf_binary32]
  obtain hlow | rfl | hhigh : q ≤ 103 ∨ q = 104 ∨ 105 ≤ q := by omega
  · have hmono : (2 : ℚ) ^ q ≤ 2 ^ (103 : ℤ) := zpow_le_zpow_right₀ one_le_two hlow
    rw [div_lt_iff₀ (by positivity)] at hlt
    norm_num [overflow32] at hov hmono hlt
    linarith
  · have ht : (2 : ℚ) ^ 24 - 1 / 2 ≤ x / 2 ^ (104 : ℤ) := by
      rw [le_div_iff₀ (by positivity)]
      refine le_trans (le_of_eq ?_) hov
      norm_num [overflow32]
    have hk := hnear.natCast_le_of_half (N := 2 ^ 24) (by decide) (by exact_mod_cast ht)
    omega
  · have hk := hnear.natCast_le (N := 2 ^ 23) (by have := hge (by omega); push_cast; linarith)
    omega

/-- One rounding of an exact result (R10): to nearest below the overflow bound, and to the infinity of its sign from
there on. -/
theorem roundsTo32_round32 (d : Nat) {v : FpVal} {x : ℚ} (hv : IsExact v x) : roundsTo32 x (round32 d v) := by
  obtain ⟨n, a, c, e, rfl, hc, rfl⟩ := hv
  have hmag : (0 : ℚ) ≤ a / c * 2 ^ e := by positivity
  have hbig : (0 : ℚ) < overflow32 := by norm_num [overflow32]
  refine ⟨fun hov => round32_rat_nearest d n hc hov, fun hov => ?_, fun hov => ?_⟩
  · obtain rfl : n = false := by
      cases n with
      | false => rfl
      | true =>
        rw [fpRat, if_pos rfl] at hov
        linarith
    rw [fpRat, if_neg Bool.false_ne_true, one_mul] at hov
    rw [round32, roundMag_of_overflow hc hov]
    rfl
  · obtain rfl : n = true := by
      cases n with
      | true => rfl
      | false =>
        rw [fpRat, if_neg Bool.false_ne_true] at hov
        linarith
    rw [fpRat, if_pos rfl] at hov
    rw [round32, roundMag_of_overflow hc (by linarith)]
    rfl

/-- Settles O53: each operation rounds its exact result once. -/
theorem arithmeticRoundsToNearestEven : Obligations.ArithmeticRoundsToNearestEven := by
  intro d a b ha hb
  have hva := isExact_val32 ha
  have hvb := isExact_val32 hb
  exact ⟨roundsTo32_round32 d (isExact_numAdd hva hvb), roundsTo32_round32 d (isExact_numMul hva hvb),
    fun h0 => roundsTo32_round32 d (isExact_numDiv hva hvb h0)⟩

end Sys2Proof.Machine
end

section
/-! PROOFS. The filters over a run (42_biquad.md rules R130 and R133): a run in two parts, and what a NaN or an infinity
does to every later output. -/

namespace Sys2Proof.Machine

/-! ### A run in two parts (R130, R175) -/

theorem filterF32_append (c : Coef) (xs ys : List F32) (d : Nat) (h : Hist) :
    filterF32 d c h (xs ++ ys) =
      ((filterF32 d c h xs).1 ++ (filterF32 (d + drawsPerSample * xs.length) c (filterF32 d c h xs).2 ys).1,
        (filterF32 (d + drawsPerSample * xs.length) c (filterF32 d c h xs).2 ys).2) := by
  induction xs generalizing d h with
  | nil => rfl
  | cons x xs ih =>
    have hd : d + drawsPerSample * (x :: xs).length = d + drawsPerSample + drawsPerSample * xs.length := by
      rw [List.length_cons]
      ring
    simp only [List.cons_append, filterF32, ih, hd]

theorem filterI16_append (c : Coef) (xs ys : List Int) (d : Nat) (h : Hist) :
    filterI16 d c h (xs ++ ys) =
      ((filterI16 d c h xs).1 ++ (filterI16 (d + drawsPerSample * xs.length) c (filterI16 d c h xs).2 ys).1,
        (filterI16 (d + drawsPerSample * xs.length) c (filterI16 d c h xs).2 ys).2) := by
  induction xs generalizing d h with
  | nil => rfl
  | cons x xs ih =>
    have hd : d + drawsPerSample * (x :: xs).length = d + drawsPerSample + drawsPerSample * xs.length := by
      rw [List.length_cons]
      ring
    simp only [List.cons_append, filterI16, ih, hd]

/-- Settles O47, by induction on the first part in both domains; the second part's draws follow the first's. -/
theorem filteringSplitsAtAnyPoint : Obligations.FilteringSplitsAtAnyPoint :=
  ⟨fun d c h xs ys => ⟨_, filterF32_append c xs ys d h⟩, fun d c h xs ys => ⟨_, filterI16_append c xs ys d h⟩⟩

/-! ### Values that arithmetic keeps (R133) -/

/-- A class of values that a sum or product belongs to as soon as one operand does. -/
def Absorbing (P : F32 → Prop) : Prop := ∀ d a b, P a ∨ P b → P (fadd d a b) ∧ P (fmul d a b)

/-- Some value of the history is in the class. -/
def histHas (P : F32 → Prop) (h : Hist) : Prop := P h.x1 ∨ P h.x2 ∨ P h.y1 ∨ P h.y2

/-- An input or a history value in the class puts the output in it: one of the five products is, and each sum after
it. -/
theorem Absorbing.bqStep {P : F32 → Prop} (hP : Absorbing P) (d : Nat) (c : Coef) (h : Hist) (x : F32)
    (hx : P x ∨ histHas P h) : P (bqStep d c h x).1 := by
  have hadd {d a b} (hab : P a ∨ P b) : P (fadd d a b) := (hP d a b hab).1
  have hmul {d a b} (hb : P b) : P (fmul d a b) := (hP d a b (.inr hb)).2
  obtain hx | hx1 | hx2 | hy1 | hy2 := hx
  · exact hadd (.inl (hadd (.inl (hadd (.inl (hadd (.inl (hmul hx))))))))
  · exact hadd (.inl (hadd (.inl (hadd (.inl (hadd (.inr (hmul hx1))))))))
  · exact hadd (.inl (hadd (.inl (hadd (.inr (hmul hx2))))))
  · exact hadd (.inl (hadd (.inr (hmul hy1))))
  · exact hadd (.inr (hmul hy2))

/-- Then every later output is in it too, since each output becomes history. -/
theorem Absorbing.filterF32 {P : F32 → Prop} (hP : Absorbing P) (c : Coef) (run : List F32) (d : Nat) (h : Hist)
    (hh : histHas P h) : ∀ y ∈ (filterF32 d c h run).1, P y := by
  induction run generalizing d h with
  | nil => exact nofun
  | cons x xs ih =>
    have hy := hP.bqStep d c h x (.inr hh)
    exact List.forall_mem_cons.2 ⟨hy, ih _ _ (.inr (.inr (.inl hy)))⟩

theorem Absorbing.filterF32_cons {P : F32 → Prop} (hP : Absorbing P) (c : Coef) (run : List F32) (d : Nat) (h : Hist)
    {x : F32} (hx : P x) : ∀ y ∈ (Machine.filterF32 d c h (x :: run)).1, P y := by
  have hy := hP.bqStep d c h x (.inl hx)
  exact List.forall_mem_cons.2 ⟨hy, hP.filterF32 c run _ _ (.inr (.inr (.inl hy)))⟩

theorem numAdd_numMul_nan {v w : FpVal} (h : v = .nan ∨ w = .nan) : numAdd v w = .nan ∧ numMul v w = .nan := by
  obtain rfl | rfl := h
  · exact ⟨rfl, rfl⟩
  · cases v <;> exact ⟨rfl, rfl⟩

theorem absorbing_nan : Absorbing fun v => isNaN32 v = true := by
  intro d a b hab
  obtain ⟨hadd, hmul⟩ := numAdd_numMul_nan (hab.imp (val32_eq_nan a).2 (val32_eq_nan b).2)
  exact ⟨(isNaN32_round32 d _).2 hadd, (isNaN32_round32 d _).2 hmul⟩

/-- Neither a NaN nor an infinity. -/
def FpVal.isNumber : FpVal → Bool
  | .nan => false
  | .inf _ => false
  | .rat _ _ _ _ => true

theorem isFinite32_eq_isNumber (b : F32) : isFinite32 b = (val32 b).isNumber := by
  obtain h | rfl | rfl | h := nan_or_inf_or_finite b
  · rw [(val32_eq_nan b).2 h]
    rw [isNaN32, decide_eq_true_iff] at h
    exact decide_eq_false (by omega)
  · rfl
  · rfl
  · obtain ⟨a, e, hv, -, -⟩ := val32_of_finite h
    rw [h, hv]
    rfl

/-- A NaN or an infinity is narrowed to one of the two. -/
theorem isFinite32_round32_of_not_number {v : FpVal} (hv : v.isNumber = false) (d : Nat) :
    isFinite32 (round32 d v) = false := by
  cases v with
  | nan =>
    rw [isFinite32_eq_isNumber, round32, val32_quietNaN]
    rfl
  | inf n =>
    rw [round32, isFinite32, toNat_pack32 n _ (by decide)]
    exact decide_eq_false (lt_irrefl _)
  | rat n a c e => cases hv

/-- A sum or a product is a number only if both operands are. -/
theorem isNumber_numAdd_numMul {v w : FpVal} (h : v.isNumber = false ∨ w.isNumber = false) :
    (numAdd v w).isNumber = false ∧ (numMul v w).isNumber = false := by
  cases v with
  | nan => exact ⟨rfl, rfl⟩
  | inf n =>
    cases w with
    | nan => exact ⟨rfl, rfl⟩
    | inf m =>
      refine ⟨?_, rfl⟩
      rw [numAdd]
      split <;> rfl
    | rat m b c f =>
      refine ⟨rfl, ?_⟩
      rw [numMul]
      split <;> rfl
  | rat n a d e =>
    cases w with
    | nan => exact ⟨rfl, rfl⟩
    | inf m =>
      refine ⟨rfl, ?_⟩
      rw [numMul]
      split <;> rfl
    | rat m b c f => exact absurd h (by simp [FpVal.isNumber])

theorem absorbing_not_finite : Absorbing fun v => isFinite32 v = false := by
  intro d a b hab
  simp only [isFinite32_eq_isNumber a, isFinite32_eq_isNumber b] at hab
  obtain ⟨hadd, hmul⟩ := isNumber_numAdd_numMul hab
  exact ⟨isFinite32_round32_of_not_number hadd d, isFinite32_round32_of_not_number hmul d⟩

theorem histHas_not_finite {h : Hist} (hh : ¬ histFinite h) : histHas (fun v => isFinite32 v = false) h := by
  simp only [histHas, ← Bool.not_eq_true]
  tauto

/-- Settles O49: NaNs absorb, and so do NaNs and infinities together. -/
theorem nanHistoryPersists : Obligations.NanHistoryPersists := by
  intro d c h run
  refine ⟨fun hh => absorbing_nan.filterF32 c run d h hh,
    fun hh => absorbing_not_finite.filterF32 c run d h (histHas_not_finite hh),
    fun x hx => absorbing_nan.filterF32_cons c run d h hx, fun x hx => absorbing_not_finite.filterF32_cons c run d h hx⟩

end Sys2Proof.Machine
end

section
/-! PROOFS. Zeros and neutral coefficients (42_biquad.md rules R131, R133, R141; 43_stereo_adapter.md rule R173): a sum of
zeros is `-0.0` only when all of them are, and a product by 1.0 or a sum with a zero changes nothing. -/

namespace Sys2Proof.Machine

/-! ### Signed zeros -/

/-- The zero of a sign. -/
def signedZero (n : Bool) : F32 := pack32 n 0

theorem val32_signedZero (n : Bool) : val32 (signedZero n) = .rat n 0 1 (-149) := by cases n <;> decide

/-- A finite value times `+0.0` is the zero of its sign. -/
theorem fmul_zero {b : F32} (hb : isFinite32 b = true) (d : Nat) : fmul d b 0 = signedZero b.msb := by
  obtain ⟨a, e, hv, -, -⟩ := val32_of_finite hb
  have h0 : val32 0 = .rat false 0 1 (-149) := val32_signedZero false
  rw [fmul, hv, h0, numMul, Nat.mul_zero, Bool.bne_false, round32]
  rfl

/-- A sum of zeros is negative when both are (R133). -/
theorem fadd_signedZero (d : Nat) (n m : Bool) : fadd d (signedZero n) (signedZero m) = signedZero (n && m) := by
  rw [fadd, val32_signedZero, val32_signedZero]
  cases n <;> cases m <;> rfl

/-- From zero history, `+0.0` gives the zero that is negative only if all five coefficients are. -/
theorem bqStep_zero {c : Coef} (hc : coefFinite c = true) (d : Nat) :
    (bqStep d c ⟨0, 0, 0, 0⟩ 0).1 = signedZero (c.b0.msb && c.b1.msb && c.b2.msb && c.a1.msb && c.a2.msb) := by
  obtain ⟨h0, h1, h2, h3, h4⟩ := (coefFinite_iff c).1 hc
  simp only [bqStep, fmul_zero h0, fmul_zero h1, fmul_zero h2, fmul_zero h3, fmul_zero h4, fadd_signedZero]

theorem someSignClear_iff (c : Coef) :
    someSignClear c ↔ (c.b0.msb && c.b1.msb && c.b2.msb && c.a1.msb && c.a2.msb) = false := by
  simp only [someSignClear, Bool.and_eq_false_iff, or_assoc]

theorem bqStep_zero_of_someSignClear {c : Coef} (hc : coefFinite c = true) (hs : someSignClear c) (d : Nat) :
    bqStep d c ⟨0, 0, 0, 0⟩ 0 = (0, ⟨0, 0, 0, 0⟩) := by
  have hy : (bqStep d c ⟨0, 0, 0, 0⟩ 0).1 = 0 := by
    rw [bqStep_zero hc, (someSignClear_iff c).1 hs]
    rfl
  exact Prod.ext hy (congrArg (Hist.mk 0 0 · 0) hy)

theorem filterF32_zeros {c : Coef} (hc : coefFinite c = true) (hs : someSignClear c) (n d : Nat) :
    filterF32 d c ⟨0, 0, 0, 0⟩ (List.replicate n 0) = (List.replicate n 0, ⟨0, 0, 0, 0⟩) := by
  induction n generalizing d with
  | zero => rfl
  | succ n ih => simp only [List.replicate_succ, filterF32, bqStep_zero_of_someSignClear hc hs, ih]

theorem sat16_zero (d : Nat) : sat16 d 0 = 0 := by
  have hv : fmul (d + 10) 0 int16Ceil = 0 := rfl
  have h0 : rat32 0 = 0 := by simp [rat32]
  rw [sat16_of_finite hv (by decide), h0]
  norm_num

theorem normalise_zero (d : Nat) : normalise d 0 = 0 := by
  obtain ⟨-, -, h0⟩ := integerInputIsNearestQuotient d 0 (by decide) (by decide)
  exact h0 rfl

theorem filterI16_zeros {c : Coef} (hc : coefFinite c = true) (hs : someSignClear c) (n d : Nat) :
    filterI16 d c ⟨0, 0, 0, 0⟩ (List.replicate n 0) = (List.replicate n 0, ⟨0, 0, 0, 0⟩) := by
  induction n generalizing d with
  | zero => rfl
  | succ n ih =>
    simp only [List.replicate_succ, filterI16, normalise_zero, bqStep_zero_of_someSignClear hc hs, sat16_zero, ih]

/-- Settles O57: the five products are zeros of the coefficients' signs, and their sum is `+0.0` unless all are
negative. -/
theorem filtersMapZerosToZeros : Obligations.FiltersMapZerosToZeros := by
  intro d n c hc
  refine ⟨fun hs => ⟨filterF32_zeros hc hs n d, filterI16_zeros hc hs n d⟩, fun hs => ?_⟩
  have hy : (bqStep d c ⟨0, 0, 0, 0⟩ 0).1 = 0x80000000 := by
    rw [someSignClear_iff, Bool.not_eq_false] at hs
    rw [bqStep_zero hc, hs]
    rfl
  exact congrArg (fun y => ([y], Hist.mk 0 0 y 0)) hy

/-! ### A silent channel (R173) -/

theorem channelFilter_zeros {c : Coef} (hc : coefFinite c = true) (hs : someSignClear c) (fmt : BitVec 8) (d n : Nat) :
    channelFilter fmt d c ⟨0, 0, 0, 0⟩ (List.replicate n 0) = (List.replicate n 0, ⟨0, 0, 0, 0⟩) := by
  have h16 : (List.replicate n 0).map (fun v => (BitVec.ofNat 16 v).toInt) = List.replicate n 0 := List.map_replicate
  have h32 : (List.replicate n 0).map (BitVec.ofNat 32) = List.replicate n (0 : F32) := List.map_replicate
  unfold channelFilter
  split
  · rw [channelI16, h16, filterI16_zeros hc hs, List.map_replicate]
    rfl
  · rw [channelF32, h32, filterF32_zeros hc hs, List.map_replicate]
    rfl

/-- The samples of a silent channel. -/
theorem map_range_eq_replicate {f : Nat → Nat} {n : Nat} (hf : ∀ j, j < n → f j = 0) :
    (List.range n).map f = List.replicate n 0 := by
  refine List.eq_replicate_iff.2 ⟨by simp, fun y hy => ?_⟩
  obtain ⟨j, hj, rfl⟩ := List.mem_map.1 hy
  exact hf j (List.mem_range.1 hj)

/-- Settles O56: the silent channel's run is of zeros, on coefficients that are finite and, under REF64 too, not all
negative (O57). -/
theorem silentChannelStaysSilent : Obligations.SilentChannelStaysSilent := by
  intro s t h sl i w hinv hsign hi hl hn ha hx
  obtain ⟨hm, -⟩ := hinv.memory
  obtain ⟨fmt, hf, rfl, hexec⟩ := format_of_processOf hi
  obtain rfl : process fmt h s = t := Host.Outcome.next.inj ((hexec s).symm.trans hx)
  have ⟨_, hs, _⟩ := hl
  have hmem := List.mem_of_getElem? hs
  obtain ⟨hsame, hfin, -⟩ := hinv.slots sl hmem
  have hclear : someSignClear sl.coef0 := hsign.elim (fun hr => hinv.signs hr sl hmem) id
  obtain ⟨hout, -⟩ := process_accepted_spec hm hf hl hn ha
  have hzeros := channelFilter_zeros hfin hclear fmt
  rw [process_accepted_slot hf hl hn ha]
  constructor
  · intro hh hin
    have hrun : processRight fmt sl s = (List.replicate (frameCount (sampleWidth fmt) s) 0, ⟨0, 0, 0, 0⟩) := by
      rw [processRight_eq fmt sl ha, ← hsame, hh, map_range_eq_replicate hin, hzeros]
    refine ⟨congrArg (fun r : List Nat × Hist => some r.2) hrun, fun j hj => ?_⟩
    rw [(hout j hj).2, hrun]
    exact List.getD_replicate _ hj
  · intro hh hin
    have hrun : processLeft fmt sl s = (List.replicate (frameCount (sampleWidth fmt) s) 0, ⟨0, 0, 0, 0⟩) := by
      rw [processLeft_eq fmt sl ha, hh, map_range_eq_replicate hin, hzeros]
    refine ⟨congrArg (fun r : List Nat × Hist => some r.2) hrun, fun j hj => ?_⟩
    rw [(hout j hj).1, hrun]
    exact List.getD_replicate _ hj

/-! ### Rounding a binary32 value gives it back (R10) -/

/-- A finite encoding's value in its own unit: the magnitude is the unit's place and the significand. -/
theorem val32_eq_unit {b : F32} (hb : isFinite32 b = true) :
    ∃ (k : Nat) (q : Int), val32 b = .rat b.msb k 1 q ∧ k < 2 ^ 24 ∧ -149 ≤ q ∧ (-149 < q → 2 ^ 23 ≤ k) ∧
      (q + 149).toNat * 2 ^ 23 + k = b.toNat % 2 ^ 31 := by
  unfold val32
  have hm : b.toNat % 2 ^ 31 < fmtInf binary32 := of_decide_eq_true hb
  generalize b.toNat % 2 ^ 31 = m at hm
  by_cases h23 : m < 2 ^ 23
  · exact ⟨m, -149, unpack_of_subnormal _ h23, by omega, le_rfl, by omega, by omega⟩
  · obtain ⟨e, f, rfl, h0, h1, hf⟩ := normal_of_finite hm h23
    exact ⟨2 ^ 23 + f, e - 150, unpack_of_normal _ h0 h1 hf, by omega, by omega, by omega, by omega⟩

/-- A significand of 24 bits, or one in the subnormals' unit, is encoded as it is. -/
theorem roundMag_of_unit {k : Nat} {q : Int} (hk : k < 2 ^ 24) (hq : -149 ≤ q) (hnorm : -149 < q → 2 ^ 23 ≤ k)
    (hfin : (q + 149).toNat * 2 ^ 23 + k < fmtInf binary32) :
    roundMag binary32 k 1 q = (q + 149).toNat * 2 ^ 23 + k := by
  by_cases h0 : k = 0
  · obtain rfl : q = -149 := by omega
    rw [h0]
    rfl
  have hx : (0 : ℚ) < (k : ℚ) / (1 : ℕ) * 2 ^ q := by
    have : (0 : ℚ) < k := by exact_mod_cast Nat.pos_of_ne_zero h0
    positivity
  have hval : (k : ℚ) / (1 : ℕ) * 2 ^ q / 2 ^ q = k := by
    rw [Nat.cast_one, div_one, mul_div_cancel_right₀ _ (zpow_ne_zero q two_ne_zero)]
  have hu : unitExp binary32 k 1 q = q := by
    obtain ⟨hmin, hlt, hge⟩ := unitExp_spec binary32 q (Nat.pos_of_ne_zero h0) one_pos
    rw [mul_two_zpow_sub] at hlt hge
    refine le_antisymm (unit_le_unit hx hq ?_ hge) (unit_le_unit hx hmin hlt fun h => ?_)
    · rw [hval]
      exact_mod_cast hk
    · have h23 : (2 : ℚ) ^ 23 ≤ k := by exact_mod_cast hnorm h
      rw [hval]
      change (2 : ℚ) ^ 24 ≤ k * 2
      linarith
  have hexact : divNearestEven (scaleFrac k 1 (q - q)).1 (scaleFrac k 1 (q - q)).2 = k := by
    simp [scaleFrac, divNearestEven, Nat.mod_one]
  simp only [roundMag, if_neg h0, hu, hexact]
  exact min_eq_right hfin.le

theorem roundMag_val32 {b : F32} (hb : isFinite32 b = true) :
    ∃ k q, val32 b = .rat b.msb k 1 q ∧ roundMag binary32 k 1 q = b.toNat % 2 ^ 31 := by
  obtain ⟨k, q, hv, hk, hq, hnorm, hm⟩ := val32_eq_unit hb
  have hfin : b.toNat % 2 ^ 31 < fmtInf binary32 := of_decide_eq_true hb
  exact ⟨k, q, hv, (roundMag_of_unit hk hq hnorm (hm ▸ hfin)).trans hm⟩

theorem pack32_msb_mod (b : F32) : pack32 b.msb (b.toNat % 2 ^ 31) = b := by
  have hb := b.isLt
  apply BitVec.eq_of_toNat_eq
  simp only [pack32, BitVec.toNat_ofNat, BitVec.msb_eq_decide, decide_eq_true_eq]
  split <;> omega

/-- Numbers of one value that is not 0 have one sign and one magnitude. -/
theorem sign_magnitude_of_eq {n m : Bool} {a c a' c' : Nat} {e e' : Int}
    (h : fpRat (.rat n a c e) = fpRat (.rat m a' c' e')) (h0 : fpRat (.rat n a c e) ≠ 0) :
    n = m ∧ (a : ℚ) / c * 2 ^ e = a' / c' * 2 ^ e' := by
  have hx : (0 : ℚ) ≤ a / c * 2 ^ e := by positivity
  have hy : (0 : ℚ) ≤ a' / c' * 2 ^ e' := by positivity
  rw [fpRat] at h0
  rw [fpRat, fpRat] at h
  generalize (a : ℚ) / c * 2 ^ e = x at *
  generalize (a' : ℚ) / c' * 2 ^ e' = y at *
  have hx0 : x ≠ 0 := by
    rintro rfl
    simp at h0
  have hunlike : x ≠ -y := fun h => hx0 (by linarith)
  cases n <;> cases m
  · exact ⟨rfl, by simpa using h⟩
  · exact absurd (by simpa using h) hunlike
  · exact absurd (neg_eq_iff_eq_neg.1 (by simpa using h)) hunlike
  · exact ⟨rfl, by simpa using h⟩

/-- Rounding a number with the value of a finite encoding other than a zero gives that encoding. -/
theorem round32_eq_of_isExact {v : FpVal} {b : F32} (hv : IsExact v (rat32 b)) (hb : isFinite32 b = true)
    (h0 : rat32 b ≠ 0) (d : Nat) : round32 d v = b := by
  obtain ⟨n, a, c, e, rfl, hc, hval⟩ := hv
  obtain ⟨k, q, hvb, hmag⟩ := roundMag_val32 hb
  rw [← fpRat_val32 hb, hvb] at hval h0
  obtain ⟨hsign, heq⟩ := sign_magnitude_of_eq hval (hval ▸ h0)
  rw [round32, roundMag_congr binary32 hc one_pos heq, hmag, hsign, pack32_msb_mod]

/-- Only the zeros have the value 0. -/
theorem rat32_ne_zero {b : F32} (hb : isFinite32 b = true) (hpos : b ≠ 0) (hneg : b ≠ 0x80000000) : rat32 b ≠ 0 := by
  obtain ⟨k, q, hv, -, hq, hnorm, hm⟩ := val32_eq_unit hb
  have hk : k ≠ 0 := by
    rintro rfl
    have h0 : b.toNat ≠ 0 := fun h => hpos (BitVec.eq_of_toNat_eq h)
    have h1 : b.toNat ≠ 0x80000000 := fun h => hneg (BitVec.eq_of_toNat_eq h)
    have hlt := b.isLt
    omega
  rw [← fpRat_val32 hb, hv, fpRat]
  have hunit : (2 : ℚ) ^ q ≠ 0 := zpow_ne_zero q two_ne_zero
  cases b.msb <;> simp [hk, hunit]

/-! ### The neutral filter (R141) -/

theorem rat32_signedZero (n : Bool) : rat32 (signedZero n) = 0 := by
  rw [← fpRat_val32 (by cases n <;> decide), val32_signedZero]
  simp [fpRat]

/-- `+0.0` times a finite value is the zero of its sign. -/
theorem zero_fmul {b : F32} (hb : isFinite32 b = true) (d : Nat) : fmul d 0 b = signedZero b.msb := by
  obtain ⟨a, e, hv, -, -⟩ := val32_of_finite hb
  have h0 : val32 0 = .rat false 0 1 (-149) := val32_signedZero false
  rw [fmul, hv, h0, numMul, Nat.zero_mul, Bool.false_bne, round32]
  rfl

/-- A finite value but `-0.0` plus a zero is itself. -/
theorem fadd_zero {b : F32} (hb : isFinite32 b = true) (hneg : b ≠ 0x80000000) (d : Nat) (n : Bool) :
    fadd d b (signedZero n) = b := by
  by_cases hpos : b = 0
  · rw [hpos]
    exact fadd_signedZero d false n
  have hz : isFinite32 (signedZero n) = true := by cases n <;> decide
  have hsum := isExact_numAdd (isExact_val32 hb) (isExact_val32 hz)
  rw [rat32_signedZero, add_zero] at hsum
  exact round32_eq_of_isExact hsum hb (rat32_ne_zero hb hpos hneg) d

/-- 1.0 times a finite value but `-0.0` is itself. -/
theorem one_fmul {b : F32} (hb : isFinite32 b = true) (hneg : b ≠ 0x80000000) (d : Nat) : fmul d 0x3F800000 b = b := by
  by_cases hpos : b = 0
  · rw [hpos]
    exact fmul_zero (by decide) d
  have hone : rat32 0x3F800000 = 1 := by
    rw [← fpRat_val32 (by decide), show val32 0x3F800000 = .rat false (2 ^ 23) 1 (-23) by decide]
    norm_num [fpRat]
  have hprod := isExact_numMul (isExact_val32 (b := 0x3F800000) (by decide)) (isExact_val32 hb)
  rw [hone, one_mul] at hprod
  exact round32_eq_of_isExact hprod hb (rat32_ne_zero hb hpos hneg) d

theorem bqStep_neutral {h : Hist} (hh : histFinite h) {x : F32} (hx : isFinite32 x = true) (hneg : x ≠ 0x80000000)
    (d : Nat) : bqStep d Coef.neutral h x = (x, ⟨x, h.x1, x, h.y1⟩) := by
  obtain ⟨h1, h2, h3, h4⟩ := hh
  simp only [bqStep, Coef.neutral, one_fmul hx hneg, zero_fmul h1, zero_fmul h2, zero_fmul h3, zero_fmul h4,
    fadd_zero hx hneg]

/-- Settles O52, by induction on the run: the four history products are zeros, and each new history is finite. -/
theorem neutralFloatFilterIsIdentity : Obligations.NeutralFloatFilterIsIdentity := by
  intro d h run hh hrun
  induction run generalizing d h with
  | nil => rfl
  | cons x xs ih =>
    obtain ⟨⟨hx, hneg⟩, hxs⟩ := List.forall_mem_cons.1 hrun
    have ⟨h1, _, h3, _⟩ := hh
    simp only [filterF32, bqStep_neutral hh hx hneg]
    rw [ih _ _ ⟨hx, h1, hx, h3⟩ hxs]

end Sys2Proof.Machine
end
